-- ==== Sys2Proof/Word.lean ====
section
/-! DEFINITION. The words of the SK6812 encoder: bytes and 34-bit tokens (00_scope.md R11, 30_encoding.md R51). -/

namespace Sys2Proof

/-- A byte, bit 7 the most significant (R11). -/
abbrev Byte := BitVec 8

/-- One word of a host channel, `tok[33:0]` (R51). -/
abbrev Token := BitVec 34

end Sys2Proof
end

