-- ==== Sys2Proof/Syntax.lean ====
section
/-! DEFINITION. The instructions of the block: the tokens a host can send to each engine, one constructor per row of
spec/opcode_table.json (30_encoding.md R52), and the pseudo-operations of R60. -/

namespace Sys2Proof

/-- The two engines (00_scope.md R2). A token's engine is the channel it arrives on, not a bit of it (R50). -/
inductive Engine where
  /-- the GPIO Pulse Encoder -/
  | gpe
  /-- the SPI Pattern Encoder -/
  | spe
  deriving DecidableEq, Repr

/-- A colour value: four channel bytes, every value legal (10_state.md R14). -/
structure Colour where
  r : Byte
  g : Byte
  b : Byte
  w : Byte
  deriving DecidableEq, Repr

/-- The tokens. The ignored payload of `INIT`, `END` and the reserved kinds (R53) is no operand, so it is not kept. -/
inductive Instr where
  /-- `GPE.COLOR r, g, b, w` (R71) -/
  | gpeColor (r g b w : Byte)
  /-- `GPE.END` (R72) -/
  | gpeEnd
  /-- kind `0b00` on the GPE: reserved, illegal (R55) -/
  | gpeRsvd00
  /-- kind `0b11` on the GPE: reserved, illegal (R55) -/
  | gpeRsvd11
  /-- `SPE.INIT`, the source's `new` (R80) -/
  | speInit
  /-- `SPE.COLOR r, g, b, w` (R82) -/
  | speColor (r g b w : Byte)
  /-- `SPE.END` (R85) -/
  | speEnd
  /-- kind `0b11` on the SPE: reserved, illegal (R55) -/
  | speRsvd11
  deriving DecidableEq, Repr

/-- The pseudo-operation `GPE.write cs` (R60): one `COLOR` per colour, then `END`. -/
def gpeWrite (cs : List Colour) : List Instr :=
  cs.map (fun c => .gpeColor c.r c.g c.b c.w) ++ [.gpeEnd]

/-- The pseudo-operation `SPE.write cs` (R60): one `COLOR` per colour, then `END`. -/
def speWrite (cs : List Colour) : List Instr :=
  cs.map (fun c => .speColor c.r c.g c.b c.w) ++ [.speEnd]

/-- The pseudo-operation `SPE.new` (R60). -/
def speNew : List Instr := [.speInit]

end Sys2Proof
end

