-- ==== Sys2Proof/Decode.lean ====
section
/-! DEFINITION. The token decoder and encoder (30_encoding.md R51 to R55). Decoding is total on 34-bit words and reads
bits 33:32 alone to choose the row; it never depends on the engine's state (R54). -/

namespace Sys2Proof

/-- `kind = tok[33:32]` (R51). -/
def tokenKind (t : Token) : BitVec 2 := t.extractLsb' 32 2

/-- `r = tok[31:24]` (R53). -/
def tokenRed (t : Token) : Byte := t.extractLsb' 24 8

/-- `g = tok[23:16]` (R53). -/
def tokenGreen (t : Token) : Byte := t.extractLsb' 16 8

/-- `b = tok[15:8]` (R53). -/
def tokenBlue (t : Token) : Byte := t.extractLsb' 8 8

/-- `w = tok[7:0]` (R53). -/
def tokenWhite (t : Token) : Byte := t.extractLsb' 0 8

/-- The GPE's column of the kind map (R52). -/
def decodeGpe (t : Token) : Instr :=
  if tokenKind t = 0b01#2 then
    .gpeColor (tokenRed t) (tokenGreen t) (tokenBlue t) (tokenWhite t)
  else if tokenKind t = 0b10#2 then .gpeEnd
  else if tokenKind t = 0b00#2 then .gpeRsvd00
  else .gpeRsvd11

/-- The SPE's column of the kind map (R52). -/
def decodeSpe (t : Token) : Instr :=
  if tokenKind t = 0b00#2 then .speInit
  else if tokenKind t = 0b01#2 then
    .speColor (tokenRed t) (tokenGreen t) (tokenBlue t) (tokenWhite t)
  else if tokenKind t = 0b10#2 then .speEnd
  else .speRsvd11

/-- What the engine that receives a word makes of it (R54). -/
def decode : Engine → Token → Instr
  | .gpe => decodeGpe
  | .spe => decodeSpe

/-- The engine an instruction is sent to. -/
def engineOf : Instr → Engine
  | .gpeColor _ _ _ _ => .gpe
  | .gpeEnd => .gpe
  | .gpeRsvd00 => .gpe
  | .gpeRsvd11 => .gpe
  | .speInit => .spe
  | .speColor _ _ _ _ => .spe
  | .speEnd => .spe
  | .speRsvd11 => .spe

/-- A token from its fields (R51): `kind ‖ r ‖ g ‖ b ‖ w`. -/
def packToken (kind : BitVec 2) (r g b w : Byte) : Token := (kind ++ r ++ g ++ b ++ w).cast rfl

/-- The word an assembler writes for an instruction; ignored payload bits are zero (R53). -/
def encode : Instr → Token
  | .gpeColor r g b w => packToken 0b01#2 r g b w
  | .gpeEnd => packToken 0b10#2 0 0 0 0
  | .gpeRsvd00 => packToken 0b00#2 0 0 0 0
  | .gpeRsvd11 => packToken 0b11#2 0 0 0 0
  | .speInit => packToken 0b00#2 0 0 0 0
  | .speColor r g b w => packToken 0b01#2 r g b w
  | .speEnd => packToken 0b10#2 0 0 0 0
  | .speRsvd11 => packToken 0b11#2 0 0 0 0

/-- The token in a table word: its low 34 bits (R51). -/
def tableToken (nbits w : Nat) : Token := BitVec.ofNat 34 (w % 2 ^ nbits)

/-- The channel of a table word. Both engines use the same kind numbers and no bit of a token names the engine (R51, R52),
so a table word carries the channel in bit 34, above the token: 0 for `g_tok`, 1 for `s_tok`. DESIGN CHOICE (log entry 9).
A word with any higher bit set is no token. -/
def tableEngine (nbits w : Nat) : Option Engine :=
  if w % 2 ^ nbits < 2 ^ 34 then some .gpe
  else if w % 2 ^ nbits < 2 ^ 35 then some .spe
  else none

/-- The instruction this decoder reads from a table word. -/
def decodeTableWord (nbits w : Nat) : Option Instr :=
  (tableEngine nbits w).map fun e => decode e (tableToken nbits w)

end Sys2Proof
end

