-- ==== Sys2Proof/Config.lean ====
section
/-! DEFINITION. The elaboration-time constants of both engines (00_scope.md R8, R9; 10_state.md R15) and the
reference configuration `CFG_REF`. They are parameters: no statement fixes one, and no step writes one. -/

namespace Sys2Proof

/-- The configuration constants. Durations are whole microseconds (R8). -/
structure Config where
  /-- `T_SHORT`, high time of a 0 bit (R8, OPEN) -/
  tShort : Nat
  /-- `T_LONG`, high time of a 1 bit (R8, OPEN) -/
  tLong : Nat
  /-- `T_LOW`, low hold after a 0 bit (R8, OPEN) -/
  tLow : Nat
  /-- `T_LOW1`, the optional low hold after a 1 bit; absent by default (R8, R67) -/
  tLow1 : Option Nat
  /-- `T_SETTLE`, the delay before every high phase (R8, R66, OPEN) -/
  tSettle : Nat
  /-- `T_RESET`, the reset interval after the last colour (R8) -/
  tReset : Nat
  /-- `DW`, the width in bits of a delay request's argument (R8) -/
  dw : Nat
  /-- `CH`, channels expanded per LED, 3 or 4 (R9) -/
  ch : Nat
  /-- `PER_LED`, bytes per slice (R9) -/
  perLed : Nat
  /-- `L`, the number of LED slots (R9, OPEN) -/
  leds : Nat
  /-- `N`, the frame buffer capacity in bytes (R9) -/
  n : Nat
  /-- `G`, the reset-gap payload size in bytes (R9) -/
  g : Nat
  /-- `SCLK_HZ`, the serial clock rate the configuration was derived for (R9) -/
  sclkHz : Nat
  /-- `PT[0..3]`, the pattern table (R9, R37) -/
  pt : Vector Byte 4
  /-- `EW`, the width in bits of the opaque serial error code (R9) -/
  ew : Nat
  deriving DecidableEq, Repr

/-- `T_RESET_MIN`, the least legal `T_RESET` (R8). -/
def Config.tResetMin : Nat := 80

/-- `GAP_MIN_US`, the least low time the gap must give (R9). -/
def Config.gapMinUs : Nat := 300

/-- `CFG_REF` of R8 and R9 with `L = leds`, which the spec states per vector. -/
def Config.cfgRef (leds : Nat) : Config where
  tShort := 1
  tLong := 3
  tLow := 2
  tLow1 := none
  tSettle := 1
  tReset := 90
  dw := 16
  ch := 4
  perLed := 16
  leds := leds
  n := 16 * leds
  g := 140
  sclkHz := 3600000
  pt := #v[0x88, 0x8E, 0xE8, 0xEE]
  ew := 8

end Sys2Proof
end

