-- ==== Sys2Proof/Machine/State.lean ====
section
/-! DEFINITION. The state of the block (10_state.md): both engines' registers, the frame buffer, the ports, and the events
still to come. Plain data throughout. -/

namespace Sys2Proof.Machine

/-- The response status (30_encoding.md R56). -/
inductive Status where
  /-- the write completed -/
  | ok
  /-- a serial write failed -/
  | writeErr
  /-- the flush failed -/
  | flushErr
  /-- an illegal token was received -/
  | illegal
  deriving DecidableEq, Repr

/-- `G_RUN`: which token the GPE is executing (R18). -/
inductive GRun where
  | idle
  | color
  | endTok
  | ill
  deriving DecidableEq, Repr

/-- `S_RUN`: which multi-step token the SPE is executing (R24). -/
inductive SRun where
  | idle
  | endTok
  | ill
  deriving DecidableEq, Repr

/-- An element of a GPE script, and of the GPE's trace once issued (40_gpio_pulse_encoder.md R62). -/
inductive GEvent where
  /-- `PinSet(level)`, true for set-output-high (R57) -/
  | pinSet (level : Bool)
  /-- `Delay(n)`, `n` microseconds (R58) -/
  | delay (n : Nat)
  /-- `Rsp(status, code)` (R62) -/
  | rsp (status : Status) (code : Nat)
  deriving DecidableEq, Repr

/-- A transaction or response of the SPE (41_spi_pattern_encoder.md R85). -/
inductive SEvent where
  /-- `SerWrite(bytes)` (R59) -/
  | serWrite (bytes : List Byte)
  /-- `SerFlush` (R59) -/
  | serFlush
  /-- `Rsp(status, code)` (R90) -/
  | rsp (status : Status) (code : Nat)
  deriving DecidableEq, Repr

/-- The serial collaborator's answer (R59). The code's low `EW` bits pass through the port. -/
inductive SerAnswer where
  | ok
  | err (code : Nat)
  deriving DecidableEq, Repr

/-- One event: a move of an agent (00_scope.md R6), with what the agent draws freely (60_exceptions.md R109). -/
inductive Move where
  /-- the GPE makes its enabled step: take, issue or retire -/
  | gpe
  /-- the SPE makes its enabled step: take or issue -/
  | spe
  /-- the pin collaborator answers the outstanding `PinSet` with `pin_err` -/
  | pinAnswer (err : Bool)
  /-- the delay collaborator answers the outstanding `Delay` -/
  | delayDone
  /-- the serial collaborator answers the outstanding `SerWrite` or `SerFlush` -/
  | serAnswer (a : SerAnswer)
  /-- the host takes the GPE's outstanding response -/
  | gpeRspTaken
  /-- the host takes the SPE's outstanding response -/
  | speRspTaken
  /-- the host sends a word on `g_tok` -/
  | gpeToken (t : Token)
  /-- the host sends a word on `s_tok` -/
  | speToken (t : Token)
  /-- an answer arrives to a transaction that hardware reset abandoned (R114) -/
  | lateAnswer
  /-- `rst` is asserted and released; `col` and `fill` are what `G_COL` and `FB`, which have no reset value, hold after it -/
  | rst (col : BitVec 32) (fill : List Byte)
  deriving DecidableEq, Repr

/-- Memory: the bytes that differ from `Memory.unlisted`, addresses strictly rising. -/
abbrev Memory := List Host.Cell

/-- The GPE (10_state.md section 3) and its ports. -/
structure Gpe where
  /-- `G_PINQ`, true for high (R16) -/
  pinq : Bool
  /-- `G_COL` (R17) -/
  col : BitVec 32
  /-- `G_RUN` (R18) -/
  run : GRun
  /-- `G_PC` (R19) -/
  pc : BitVec 8
  /-- `G_FAULT` (R20) -/
  fault : Bool
  /-- the element at `G_PC` has been issued and its answer has not arrived (R62) -/
  wait : Bool
  /-- words on `g_tok` not yet taken, oldest first (R50) -/
  tok : List Token
  /-- everything issued, oldest first (R7) -/
  trace : List GEvent
  /-- response words the host has taken from `g_rsp`, oldest first (R56) -/
  rsp : List Nat
  deriving DecidableEq, Repr

/-- The SPE (10_state.md section 4) and its ports. -/
structure Spe where
  /-- `FB[0..N-1]` (R21) -/
  fb : Memory
  /-- `S_INIT` (R22) -/
  init : Bool
  /-- `S_K` (R23) -/
  k : Nat
  /-- `S_RUN` (R24) -/
  run : SRun
  /-- `S_PC` (R25) -/
  pc : BitVec 2
  /-- `S_ST` (R26) -/
  st : Status
  /-- `S_CODE` (R26) -/
  code : Nat
  /-- `S_FAULT` (R27) -/
  fault : Bool
  /-- the element at `S_PC` has been issued and its answer has not arrived (R77) -/
  wait : Bool
  /-- words on `s_tok` not yet taken, oldest first (R50) -/
  tok : List Token
  /-- everything issued, oldest first (R7) -/
  trace : List SEvent
  /-- response words the host has taken from `s_rsp`, oldest first (R56) -/
  rsp : List Nat
  deriving DecidableEq, Repr

/-- The whole machine. The engines share nothing but the configuration (R3); `agenda` is the model's own field, the events
still to come, and stands for every choice the spec leaves to the agents (R28, R109). -/
structure State where
  /-- the configuration constants (R15), written by no step -/
  cfg : Config
  gpe : Gpe
  spe : Spe
  /-- which event comes next, and after it -/
  agenda : List Move
  deriving DecidableEq, Repr

/-- The reasons a step can stop with a fault. `Fault(ILLEGAL_TOKEN)` is none of them: it is a next state with the sticky
fault bit set (R102). -/
inductive Fault where
  /-- A `MemWrite` outside `FB`, which 00_scope.md R13 leaves undefined. Raised by the meanings of `SPE.INIT` and `SPE.COLOR`
  under a configuration that fails `CfgOK` (d) only; `step` refuses such a configuration first (R40). Safe. -/
  | frameRange
  deriving DecidableEq, Repr

/-- The reasons a step can be refused. -/
inductive Refusal where
  /-- An instruction with no meaning yet, by its mnemonic. Raised by an arm of `exec` only. Safe. -/
  | notModelled (mnemonic : String)
  /-- The configuration fails `CfgOK`: there is no such block (R10, R101). Raised by `step`. Safe. -/
  | configIllFormed
  deriving DecidableEq, Repr

/-- The GPE after hardware reset (R31), with `col` in `G_COL`, which has no reset value. -/
def Gpe.atReset (col : BitVec 32) : Gpe where
  pinq := false
  col := col
  run := .idle
  pc := 0
  fault := false
  wait := false
  tok := []
  trace := []
  rsp := []

/-- The SPE after hardware reset (R31), with `fb` in `FB`, which has no reset value. -/
def Spe.atReset (fb : Memory) : Spe where
  fb := fb
  init := false
  k := 0
  run := .idle
  pc := 0
  st := .ok
  code := 0
  fault := false
  wait := false
  tok := []
  trace := []
  rsp := []

/-- The machine right after the first hardware reset, under a configuration. `G_COL` and every byte of `FB` are 0:
DESIGN CHOICE (log entry 3), as 93_implementation_defined.md U10 allows. -/
def State.resetWith (c : Config) : State where
  cfg := c
  gpe := Gpe.atReset 0
  spe := Spe.atReset []
  agenda := []

/-- The machine right after reset, under `CFG_REF` with one LED (log entry 1). -/
def State.reset : State := State.resetWith (Config.cfgRef 1)

end Sys2Proof.Machine
end

