-- ==== Sys2Proof/Machine/Ops.lean ====
section
/-! DEFINITION. The named operations over memory, registers and channels, and taking an exception. -/

namespace Sys2Proof.Machine

/-! ### State updates -/

/-- The state with another GPE. -/
def State.withGpe (s : State) (g : Gpe) : State := { s with gpe := g }

/-- The state with another SPE. -/
def State.withSpe (s : State) (p : Spe) : State := { s with spe := p }

/-- The state with other events to come. -/
def State.withAgenda (s : State) (ms : List Move) : State := { s with agenda := ms }

/-! ### The frame buffer (20_memory.md R33, R40, R41) -/

/-- What an address with no entry reads as. -/
def Memory.unlisted : Byte := 0

/-- Read one byte. -/
def Memory.read : Memory → Nat → Byte
  | [], _ => Memory.unlisted
  | (b, x) :: m, a => if b = a then x else Memory.read m a

/-- Put a cell in front, unless it holds what an unlisted address reads as. -/
def Memory.cons (a : Nat) (v : Byte) (m : Memory) : Memory :=
  if v = Memory.unlisted then m else (a, v) :: m

/-- Write one byte, keeping the canonical form. -/
def Memory.write : Memory → Nat → Byte → Memory
  | [], a, v => Memory.cons a v []
  | (b, x) :: m, a, v =>
    if a < b then Memory.cons a v ((b, x) :: m)
    else if a = b then Memory.cons a v m
    else (b, x) :: Memory.write m a v

/-- Write consecutive bytes from an address up. -/
def Memory.writeBytes : Memory → Nat → List Byte → Memory
  | m, _, [] => m
  | m, a, v :: vs => Memory.writeBytes (Memory.write m a v) (a + 1) vs

/-- Read consecutive bytes from an address up. -/
def Memory.readBytes (m : Memory) (a : Nat) : Nat → List Byte
  | 0 => []
  | k + 1 => Memory.read m a :: Memory.readBytes m (a + 1) k

/-- Every address is at least `lo`, addresses rise strictly, no entry holds what an unlisted address reads as. -/
def Memory.wfFrom : Nat → Memory → Bool
  | _, [] => true
  | lo, (a, v) :: m => decide (lo ≤ a) && decide (v ≠ Memory.unlisted) && Memory.wfFrom (a + 1) m

/-- The canonical form: addresses strictly rising, no entry equal to what an unlisted address reads as. -/
def Memory.wf (m : Memory) : Bool := Memory.wfFrom 0 m

/-- `MemWrite(addr, n, v)`: defined only when `addr + n <= N` (00_scope.md R13). -/
def memWrite (c : Config) (m : Memory) (addr : Nat) (vs : List Byte) : Option Memory :=
  if addr + vs.length ≤ c.n then some (m.writeBytes addr vs) else none

/-- `MemRead(0, N)`: the whole frame buffer at ascending index (R39, R41). -/
def frame (c : Config) (m : Memory) : List Byte := m.readBytes 0 c.n

/-! ### Taking a token (R55, R62, R77) -/

/-- The GPE can take a token: `G_RUN = IDLE` and `G_FAULT = 0` (R62). -/
def Gpe.ready (g : Gpe) : Bool := decide (g.run = .idle) && !g.fault

/-- The SPE can take a token: `S_RUN = IDLE` and `S_FAULT = 0` (R77). -/
def Spe.ready (p : Spe) : Bool := decide (p.run = .idle) && !p.fault

/-- The GPE with the oldest word of `g_tok` taken from the channel (R48). -/
def Gpe.taken (g : Gpe) : Gpe := { g with tok := g.tok.tail }

/-- The SPE with the oldest word of `s_tok` taken from the channel (R48). -/
def Spe.taken (p : Spe) : Spe := { p with tok := p.tok.tail }

/-- A token is offered to the GPE: it is taken with the effect `eff` if the GPE is ready, else it waits on the channel and
nothing changes (R63). -/
def gpeTake (eff : State → Host.Outcome State Fault Refusal) (s : State) :
    Host.Outcome State Fault Refusal :=
  if s.gpe.ready then eff (s.withGpe s.gpe.taken) else .next s

/-- A token is offered to the SPE: it is taken with the effect `eff` if the SPE is ready, else it waits on the channel and
nothing changes (R78). -/
def speTake (eff : State → Host.Outcome State Fault Refusal) (s : State) :
    Host.Outcome State Fault Refusal :=
  if s.spe.ready then eff (s.withSpe s.spe.taken) else .next s

/-- The GPE starts the script of a run state (R62). -/
def Gpe.start (g : Gpe) (r : GRun) : Gpe := { g with run := r, pc := 0 }

/-- The SPE starts the script of a run state (R77). -/
def Spe.start (p : Spe) (r : SRun) : Spe := { p with run := r, pc := 0 }

/-! ### Exceptions (60_exceptions.md) -/

/-- `raise Fault(ILLEGAL_TOKEN)` (R102): the engine's sticky fault bit is set and the engine will answer `ILLEGAL`; no other
state changes. There is no saved program counter and no vector (R95, R105). -/
def raiseIllegal (e : Engine) (s : State) : State :=
  match e with
  | .gpe => s.withGpe { s.gpe.start .ill with fault := true }
  | .spe => s.withSpe { s.spe.start .ill with fault := true }

/-- `raise WriteErr(code)` and `raise FlushErr(code)` (R88, R89): the kind and the code's `EW` bits are recorded and the
script goes to its response step. -/
def Spe.raiseSerial (c : Config) (st : Status) (code : Nat) (p : Spe) : Spe :=
  { p with st := st, code := code % 2 ^ c.ew, pc := 3, wait := false }

/-- After its response an engine is idle and the next token starts afresh; there is no other return (R106, R13 `retire`). -/
def Gpe.retire (g : Gpe) : Gpe := g.start .idle

/-- The SPE's `retire` (R77, R90). -/
def Spe.retire (p : Spe) : Spe := p.start .idle

/-! ### Hardware reset (70_reset_and_hazards.md R114) -/

/-- Every state element at its reset value; `G_COL` and `FB` at the values drawn; the token in flight and the outstanding
transaction dropped; nothing issued. The words on the channels, the traces, the responses already taken and the
configuration are outside the reset (R15, R114). -/
def State.hardReset (s : State) (col : BitVec 32) (fill : List Byte) : State :=
  { s with
    gpe := { Gpe.atReset col with tok := s.gpe.tok, trace := s.gpe.trace, rsp := s.gpe.rsp }
    spe := { Spe.atReset (Memory.writeBytes [] 0 (fill.take s.cfg.n)) with
      tok := s.spe.tok, trace := s.spe.trace, rsp := s.spe.rsp } }

end Sys2Proof.Machine
end

