-- ==== Sys2Proof/Machine/Operands.lean ====
section
/-! DEFINITION. The operand forms: the packed colour of the GPE (10_state.md R17), the expansion of a channel byte and the
frame-buffer address map of the SPE (20_memory.md R33, R36), the gap payload (R32). -/

namespace Sys2Proof.Machine

/-- `r ‖ g ‖ b ‖ w` (R17): `r` in bits 31:24, `w` in bits 7:0. -/
def packColour (r g b w : Byte) : BitVec 32 := (r ++ g ++ b ++ w).cast rfl

/-- `pair(d, p) = d[7-2p : 6-2p]` (R36); pair 0 is the most significant. -/
def pair (d : Byte) (p : Nat) : BitVec 2 := d.extractLsb' (6 - 2 * p) 2

/-- `PT[v]` (R37). -/
def pattern (c : Config) (v : BitVec 2) : Byte := c.pt[v.toNat]'v.isLt

/-- `expand(d)`: the four pattern bytes of a channel byte, most significant pair first (R36). -/
def expand (c : Config) (d : Byte) : List Byte := [0, 1, 2, 3].map fun p => pattern c (pair d p)

/-- `addr(k, ch, p) = k*PER_LED + ch*4 + p` (R33). -/
def addr (c : Config) (k ch p : Nat) : Nat := k * c.perLed + ch * 4 + p

/-- The channel bytes of a colour that the SPE expands: the first `CH` of `r, g, b, w` (R33, R82). -/
def channels (c : Config) (r g b w : Byte) : List Byte := [r, g, b, w].take c.ch

/-- Write the expansions of channel bytes into slot `k`, from channel `ch` up, ascending (R81, R82). -/
def writeChannels (c : Config) (k : Nat) : Nat → List Byte → Memory → Option Memory
  | _, [], m => some m
  | ch, d :: ds, m => (memWrite c m (addr c k ch 0) (expand c d)).bind (writeChannels c k (ch + 1) ds)

/-- `ZB = [0x00; G]` (R32). -/
def zeroBuffer (c : Config) : List Byte := List.replicate c.g 0

end Sys2Proof.Machine
end

