-- ==== Sys2Proof/Machine/Scripts.lean ====
section
/-! DEFINITION. The scripts of the GPE (40_gpio_pulse_encoder.md R62, R66 to R72) and the elements of the SPE's `END` script
(41_spi_pattern_encoder.md R85 to R90). -/

namespace Sys2Proof.Machine

/-- The waveform of one bit: settle, high for the bit's duration, low, and the low hold (R66, R67, R68). -/
def bitScript (c : Config) (b : Bool) : List GEvent :=
  match b with
  | true => [.delay c.tSettle, .pinSet true, .delay c.tLong, .pinSet false] ++ c.tLow1.toList.map .delay
  | false => [.delay c.tSettle, .pinSet true, .delay c.tShort, .pinSet false, .delay c.tLow]

/-- `write_byte(d)`: the eight bits, most significant first (R69). -/
def byteScript (c : Config) (d : Byte) : List GEvent :=
  [7, 6, 5, 4, 3, 2, 1, 0].flatMap fun i => bitScript c (d.getLsbD i)

/-- `colorscript`: the bytes of the packed colour, red, green, blue, white (R71). -/
def colorScript (c : Config) (col : BitVec 32) : List GEvent :=
  [24, 16, 8, 0].flatMap fun i => byteScript c (col.extractLsb' i 8)

/-- The script of `GPE.END` (R72). -/
def endScript (c : Config) : List GEvent := [.pinSet false, .delay c.tReset, .rsp .ok 0]

/-- The script of an illegal token (R62, R102). -/
def illegalScript : List GEvent := [.rsp .illegal 0]

/-- The script the GPE is executing, a function of `G_RUN`, `G_COL` and the configuration (R62). -/
def Gpe.script (c : Config) (g : Gpe) : List GEvent :=
  match g.run with
  | .idle => []
  | .color => colorScript c g.col
  | .endTok => endScript c
  | .ill => illegalScript

/-- The element at `G_PC`, if there is one. -/
def Gpe.element (c : Config) (g : Gpe) : Option GEvent := (g.script c)[g.pc.toNat]?

/-- What the SPE issues at `S_RUN`, `S_PC`: the `END` script is the data transfer, the gap transfer, the flush and the
response (R85); an illegal token's is the `ILLEGAL` response (R77). -/
def Spe.element (c : Config) (p : Spe) : Option SEvent :=
  match p.run with
  | .idle => none
  | .ill => some (.rsp .illegal 0)
  | .endTok =>
    if p.pc = 0 then some (.serWrite (frame c p.fb))
    else if p.pc = 1 then some (.serWrite (zeroBuffer c))
    else if p.pc = 2 then some .serFlush
    else some (.rsp p.st p.code)

end Sys2Proof.Machine
end

