-- ==== Sys2Proof/Machine/GpeTokens.lean ====
section
/-! DEFINITION. The meanings of the GPE's tokens: their take steps (40_gpio_pulse_encoder.md R62). The script a token starts
is issued by the GPE's later steps (Machine/Agents.lean). -/

namespace Sys2Proof.Machine

/-- `GPE.COLOR` (R71): `G_COL <- r ‖ g ‖ b ‖ w ; G_RUN <- COLOR ; pc <- 0`. -/
def execGpeColor (r g b w : Byte) (s : State) : Host.Outcome State Fault Refusal :=
  gpeTake (fun u => .next (u.withGpe { u.gpe.start .color with col := packColour r g b w })) s

/-- `GPE.END` (R72): `G_RUN <- END ; pc <- 0`. -/
def execGpeEnd (s : State) : Host.Outcome State Fault Refusal :=
  gpeTake (fun u => .next (u.withGpe (u.gpe.start .endTok))) s

/-- Kind `0b00` on the GPE: `Fault(ILLEGAL_TOKEN)` (R55, R102). -/
def execGpeRsvd00 (s : State) : Host.Outcome State Fault Refusal :=
  gpeTake (fun u => .next (raiseIllegal .gpe u)) s

/-- Kind `0b11` on the GPE: `Fault(ILLEGAL_TOKEN)` (R55, R102). -/
def execGpeRsvd11 (s : State) : Host.Outcome State Fault Refusal :=
  gpeTake (fun u => .next (raiseIllegal .gpe u)) s

end Sys2Proof.Machine
end

