-- ==== Sys2Proof/Machine/SpeTokens.lean ====
section
/-! DEFINITION. The meanings of the SPE's tokens: their take steps (41_spi_pattern_encoder.md R77). `INIT` and `COLOR` are
complete in that step; the script of `END` is issued by the SPE's later steps (Machine/Agents.lean). -/

namespace Sys2Proof.Machine

/-- `SPE.INIT` (R80): with `S_K = 0`, `MemWrite(0, N, [0x00; N]) ; S_INIT <- 1 ; S_K <- 0`; else illegal (R55). -/
def execSpeInit (s : State) : Host.Outcome State Fault Refusal :=
  speTake
    (fun u =>
      if u.spe.k = 0 then
        match memWrite u.cfg u.spe.fb 0 (List.replicate u.cfg.n 0) with
        | some m => .next (u.withSpe { u.spe with fb := m, init := true, k := 0 })
        | none => .fault .frameRange
      else .next (raiseIllegal .spe u))
    s

/-- `SPE.COLOR` (R82, R83): with `S_INIT = 1`, slot `S_K` is written and `S_K` incremented while `S_K < L`, and the colour is
dropped otherwise; with `S_INIT = 0` illegal (R55). -/
def execSpeColor (r g b w : Byte) (s : State) : Host.Outcome State Fault Refusal :=
  speTake
    (fun u =>
      if u.spe.init then
        if u.spe.k < u.cfg.leds then
          match writeChannels u.cfg u.spe.k 0 (channels u.cfg r g b w) u.spe.fb with
          | some m => .next (u.withSpe { u.spe with fb := m, k := u.spe.k + 1 })
          | none => .fault .frameRange
        else .next u
      else .next (raiseIllegal .spe u))
    s

/-- `SPE.END` (R77, R85): with `S_INIT = 1`, `S_ST <- OK ; S_CODE <- 0 ; S_RUN <- END ; pc <- 0`; else illegal (R55). -/
def execSpeEnd (s : State) : Host.Outcome State Fault Refusal :=
  speTake
    (fun u =>
      if u.spe.init then .next (u.withSpe { u.spe.start .endTok with st := .ok, code := 0 })
      else .next (raiseIllegal .spe u))
    s

/-- Kind `0b11` on the SPE: `Fault(ILLEGAL_TOKEN)` (R55, R102). -/
def execSpeRsvd11 (s : State) : Host.Outcome State Fault Refusal :=
  speTake (fun u => .next (raiseIllegal .spe u)) s

end Sys2Proof.Machine
end

