-- ==== Sys2Proof/Machine/Dispatch.lean ====
section
/-! DEFINITION. One arm per token: the token is offered to its engine, and this is the engine's take step (R62, R77). -/

namespace Sys2Proof.Machine

def exec (i : Instr) (s : State) : Host.Outcome State Fault Refusal :=
  match i with
  | .gpeColor r g b w => Sys2Proof.Machine.execGpeColor r g b w s
  | .gpeEnd => Sys2Proof.Machine.execGpeEnd s
  | .gpeRsvd00 => Sys2Proof.Machine.execGpeRsvd00 s
  | .gpeRsvd11 => Sys2Proof.Machine.execGpeRsvd11 s
  | .speInit => Sys2Proof.Machine.execSpeInit s
  | .speColor r g b w => Sys2Proof.Machine.execSpeColor r g b w s
  | .speEnd => Sys2Proof.Machine.execSpeEnd s
  | .speRsvd11 => Sys2Proof.Machine.execSpeRsvd11 s

end Sys2Proof.Machine
end

