-- ==== Sys2Proof/Machine/Flags.lean ====
section
/-! DEFINITION. The status a response reports and the response word (30_encoding.md R56). The block has no arithmetic flags
(10_state.md R28); its status bits are `G_FAULT`, `S_FAULT`, `S_INIT` and `S_ST`. -/

namespace Sys2Proof.Machine

/-- The two status bits (R56). -/
def Status.bits : Status → BitVec 2
  | .ok => 0b00#2
  | .writeErr => 0b01#2
  | .flushErr => 0b10#2
  | .illegal => 0b11#2

/-- `rsp[EW+1:0]`: the status in the two high bits, the code in the low `EW` bits (R56). -/
def responseWord (c : Config) (st : Status) (code : Nat) : Nat := st.bits.toNat * 2 ^ c.ew + code

end Sys2Proof.Machine
end

