-- ==== Sys2Proof/Machine/Agents.lean ====
section
/-! DEFINITION. What each event does: the engines' own steps (R62, R77), the collaborators' answers (60_exceptions.md R109),
the host (R113) and hardware reset (R114). An issue step is a request followed by the one response to it, and between the two
the engine has no enabled step (R62); so it is two events here, the engine's request and the collaborator's answer. An event
that nothing enables changes nothing. -/

namespace Sys2Proof.Machine

/-! ### The GPE -/

/-- The GPE's issue or retire step while a token is executing (R62). The request is recorded in the trace. -/
def Gpe.advance (c : Config) (g : Gpe) : Gpe :=
  match g.element c with
  | some e => { g with trace := g.trace ++ [e], wait := true }
  | none => if g.pc.toNat = (g.script c).length then g.retire else g

/-- The outstanding transaction has its response: `pc <- G_PC + 1` (R62). -/
def Gpe.answered (g : Gpe) : Gpe := { g with pc := g.pc + 1, wait := false }

/-- `PinSet` is answered; `pin_err` is discarded and `G_PINQ` takes the level (R64, R97). -/
def Gpe.onPin (c : Config) (_err : Bool) (g : Gpe) : Gpe :=
  match g.wait, g.element c with
  | true, some (.pinSet v) => { g.answered with pinq := v }
  | _, _ => g

/-- `Delay` is answered `done` (R65). -/
def Gpe.onDelay (c : Config) (g : Gpe) : Gpe :=
  match g.wait, g.element c with
  | true, some (.delay _) => g.answered
  | _, _ => g

/-- The host takes the response word (R56, R62). -/
def Gpe.onTaken (c : Config) (g : Gpe) : Gpe :=
  match g.wait, g.element c with
  | true, some (.rsp st code) => { g.answered with rsp := g.rsp ++ [responseWord c st code] }
  | _, _ => g

/-- The GPE makes its enabled step, if it has one: none while a transaction is outstanding; when idle it takes the oldest
word on `g_tok`, which its decoder turns into an instruction; else it issues or retires (R62, R63). -/
def gpeMove (s : State) : Host.Outcome State Fault Refusal :=
  if s.gpe.wait then .next s
  else if s.gpe.run = .idle then
    match s.gpe.tok with
    | [] => .next s
    | t :: _ => exec (decode .gpe t) s
  else .next (s.withGpe (s.gpe.advance s.cfg))

/-! ### The SPE -/

/-- The SPE's issue step while a token is executing (R77). The request is recorded in the trace. -/
def Spe.advance (c : Config) (p : Spe) : Spe :=
  match p.element c with
  | some e => { p with trace := p.trace ++ [e], wait := true }
  | none => p

/-- A successful transaction: `pc <- S_PC + 1` (R25, R86, R87, R88). -/
def Spe.answered (p : Spe) : Spe := { p with pc := p.pc + 1, wait := false }

/-- The serial collaborator answers. A failed write raises `WriteErr`, a failed flush `FlushErr` (R86 to R89). -/
def Spe.onSerial (c : Config) (a : SerAnswer) (p : Spe) : Spe :=
  match p.wait, p.element c with
  | true, some (.serWrite _) =>
    match a with
    | .ok => p.answered
    | .err code => p.raiseSerial c .writeErr code
  | true, some .serFlush =>
    match a with
    | .ok => p.answered
    | .err code => p.raiseSerial c .flushErr code
  | _, _ => p

/-- The SPE's token ends with its response: `END` also puts `S_K` at 0 (R90); an illegal token leaves `S_K` (R77). -/
def Spe.finish (p : Spe) : Spe :=
  match p.run with
  | .idle => p
  | .endTok => { p.retire with k := 0, wait := false }
  | .ill => { p.retire with wait := false }

/-- The host takes the response word (R56, R77, R90). -/
def Spe.onTaken (c : Config) (p : Spe) : Spe :=
  match p.wait, p.element c with
  | true, some (.rsp st code) => { p.finish with rsp := p.rsp ++ [responseWord c st code] }
  | _, _ => p

/-- The SPE makes its enabled step, if it has one (R77, R78). -/
def speMove (s : State) : Host.Outcome State Fault Refusal :=
  if s.spe.wait then .next s
  else if s.spe.run = .idle then
    match s.spe.tok with
    | [] => .next s
    | t :: _ => exec (decode .spe t) s
  else .next (s.withSpe (s.spe.advance s.cfg))

/-! ### One event -/

/-- What an event does. A word the host sends waits at the end of its channel (R49). A late answer is ignored (R114). -/
def perform (m : Move) (s : State) : Host.Outcome State Fault Refusal :=
  match m with
  | .gpe => gpeMove s
  | .spe => speMove s
  | .pinAnswer err => .next (s.withGpe (s.gpe.onPin s.cfg err))
  | .delayDone => .next (s.withGpe (s.gpe.onDelay s.cfg))
  | .serAnswer a => .next (s.withSpe (s.spe.onSerial s.cfg a))
  | .gpeRspTaken => .next (s.withGpe (s.gpe.onTaken s.cfg))
  | .speRspTaken => .next (s.withSpe (s.spe.onTaken s.cfg))
  | .gpeToken t => .next (s.withGpe { s.gpe with tok := s.gpe.tok ++ [t] })
  | .speToken t => .next (s.withSpe { s.spe with tok := s.spe.tok ++ [t] })
  | .lateAnswer => .next s
  | .rst col fill => .next (s.hardReset col fill)

/-- The next event of the agenda happens; with none left, nothing does. -/
def nextEvent (s : State) : Host.Outcome State Fault Refusal :=
  match s.agenda with
  | [] => .next s
  | m :: ms => perform m (s.withAgenda ms)

/-- Put a word at the head of an engine's channel, the engine able to take it, and that engine next to move. -/
def placeToken (s : State) (e : Engine) (t : Token) : State :=
  match e with
  | .gpe =>
    (s.withGpe { s.gpe with run := .idle, pc := 0, fault := false, wait := false, tok := t :: s.gpe.tok }).withAgenda
      (.gpe :: s.agenda)
  | .spe =>
    (s.withSpe { s.spe with run := .idle, pc := 0, fault := false, wait := false, tok := t :: s.spe.tok }).withAgenda
      (.spe :: s.agenda)

end Sys2Proof.Machine
end

