-- ==== Sys2Proof/WellFormed.lean ====
section
/-! DEFINITION. Well-formedness. Every term of `Instr` is a legal token as syntax, its operands being bytes and every byte
legal (10_state.md R14), so the checks are those of the configuration: `CfgOK` of 00_scope.md R10, one definition per
clause. -/

namespace Sys2Proof

/-- R10 (a): a short high is shorter than a long high. -/
def Config.timingOrderOk (c : Config) : Bool := decide (c.tShort < c.tLong)

/-- R10 (b): the reset interval is at least `T_RESET_MIN`. -/
def Config.resetIntervalOk (c : Config) : Bool := decide (Config.tResetMin ≤ c.tReset)

/-- The durations the GPE requests: `T_SHORT, T_LONG, T_LOW, T_SETTLE, T_RESET` and `T_LOW1` when present. -/
def Config.durations (c : Config) : List Nat :=
  [c.tShort, c.tLong, c.tLow, c.tSettle, c.tReset] ++ c.tLow1.toList

/-- R10 (c): every duration fits a delay request's `DW` bits. -/
def Config.delayWidthOk (c : Config) : Bool := c.durations.all fun d => decide (d < 2 ^ c.dw)

/-- R10 (d): `CH` is 3 or 4, `L >= 1`, `PER_LED = 4 * CH`, `N = PER_LED * L`. -/
def Config.geometryOk (c : Config) : Bool :=
  (decide (c.ch = 3) || decide (c.ch = 4)) && decide (1 ≤ c.leds)
    && decide (c.perLed = 4 * c.ch) && decide (c.n = c.perLed * c.leds)

/-- R10 (e): the gap payload is not empty. -/
def Config.gapSizeOk (c : Config) : Bool := decide (1 ≤ c.g)

/-- R10 (f): the four pattern-table entries are pairwise different. -/
def Config.patternsOk (c : Config) : Bool := decide (c.pt.toList.Nodup)

/-- R10 (g): the gap payload lasts at least `GAP_MIN_US` at `SCLK_HZ`. -/
def Config.gapTimeOk (c : Config) : Bool :=
  decide (Config.gapMinUs * c.sclkHz ≤ 8 * c.g * 1000000)

/-- `CfgOK` (R10): the block is defined only for these configurations. -/
def Config.ok (c : Config) : Bool :=
  c.timingOrderOk && c.resetIntervalOk && c.delayWidthOk && c.geometryOk
    && c.gapSizeOk && c.patternsOk && c.gapTimeOk

end Sys2Proof
end

