-- ==== Sys2Proof/Machine/Step.lean ====
section
/-! DEFINITION. One step of the machine: the next event, under a well-formed configuration (00_scope.md R10). -/

namespace Sys2Proof.Machine

/-- One step. An ill-formed configuration has no block and is refused before any step (R10, R101). -/
def step (s : State) : Host.Outcome State Fault Refusal :=
  if s.cfg.ok then nextEvent s else .refused .configIllFormed

/-- The state in which the very next step takes a table word as a token (log entries 5 and 9). -/
def State.withFetchWord (s : State) (nbits w : Nat) : State :=
  match tableEngine nbits w with
  | some e => placeToken s e (tableToken nbits w)
  | none => s

end Sys2Proof.Machine
end

