-- ==== Sys2Proof/Safety.lean ====
section
/-! DEFINITION. The terms claims use: faulted and final states, the premises about collaborators (60_exceptions.md R110), the
invariant of the machine (10_state.md R30), the trace an engine's tokens determine (40_gpio_pulse_encoder.md R75), and
measures of a script (R69, R70, R129) and of a payload (20_memory.md R38). -/

namespace Sys2Proof.Machine

/-! ### Faulted and final states -/

/-- An engine has taken an illegal token since the last hardware reset (R102). -/
def State.faulted (s : State) : Bool := s.gpe.fault || s.spe.fault

/-- Nothing is left to do: no token on a channel, none in flight, no engine faulted. R102 says that a faulted state is never
final and R110 that a hang is none; what else a final state is, the spec leaves open. That a state with both engines idle and
both channels empty is final, also in the middle of a write (`S_K` not 0, or colours sent and no `END` yet), is the model's
DESIGN CHOICE (log entry 19). -/
def State.final (s : State) : Bool :=
  !s.faulted && decide (s.gpe.run = .idle) && decide (s.spe.run = .idle)
    && decide (s.gpe.tok = []) && decide (s.spe.tok = [])

/-! ### Runs -/

/-- `k` steps, stopping at the first fault or refusal (`Host.Core.run` of this machine: Laws/Run.lean). -/
def runSteps : Nat → State → Host.Outcome State Fault Refusal
  | 0, s => .next s
  | k + 1, s =>
    match step s with
    | .next t => runSteps k t
    | .fault r => .fault r
    | .refused r => .refused r

/-! ### Premises about collaborators (R110), over the events to come -/

/-- `P_PIN_WORKS`, as far as the block's ports show it: every `PinSet` is answered `pin_err = 0`. -/
def State.premPinWorks (s : State) : Prop := Move.pinAnswer true ∉ s.agenda

/-- The GPE waits for the answer of the pin or the delay collaborator. -/
def Gpe.asksCollaborator (c : Config) (g : Gpe) : Bool :=
  match g.wait, g.element c with
  | true, some (.pinSet _) => true
  | true, some (.delay _) => true
  | _, _ => false

/-- The GPE waits for the host to take a response. -/
def Gpe.offersResponse (c : Config) (g : Gpe) : Bool :=
  match g.wait, g.element c with
  | true, some (.rsp _ _) => true
  | _, _ => false

/-- The SPE waits for the answer of the serial collaborator. -/
def Spe.asksCollaborator (c : Config) (p : Spe) : Bool :=
  match p.wait, p.element c with
  | true, some (.serWrite _) => true
  | true, some .serFlush => true
  | _, _ => false

/-- The SPE waits for the host to take a response. -/
def Spe.offersResponse (c : Config) (p : Spe) : Bool :=
  match p.wait, p.element c with
  | true, some (.rsp _ _) => true
  | _, _ => false

/-- `q` holds again and again: after any steps, it holds after some more. -/
def State.recurs (s : State) (q : State → Bool) : Prop :=
  ∀ (k : Nat) (t : State), runSteps k s = .next t → ∃ (j : Nat) (u : State), runSteps j t = .next u ∧ q u = true

/-- `P_ANSWER`: a transaction that is outstanding after some steps is outstanding no longer after some more. That a transaction
which hardware reset abandons counts as discharged by the reset, and does not break the premise, is the model's DESIGN CHOICE:
R110 does not say (log entry 20). -/
def State.premAnswer (s : State) : Prop :=
  s.recurs (fun u => !u.gpe.asksCollaborator u.cfg) ∧ s.recurs (fun u => !u.spe.asksCollaborator u.cfg)

/-- `P_HOST_TAKES`: a response that is offered after some steps is offered no longer after some more. A response that hardware
reset abandons counts as discharged, as in `premAnswer` (log entry 20). -/
def State.premHostTakes (s : State) : Prop :=
  s.recurs (fun u => !u.gpe.offersResponse u.cfg) ∧ s.recurs (fun u => !u.spe.offersResponse u.cfg)

/-! ### The invariant -/

/-- The level last commanded once a list of script elements has been issued, starting from a level (R16). -/
def levelAfter : Bool → List GEvent → Bool
  | v, [] => v
  | _, .pinSet v :: es => levelAfter v es
  | v, .delay _ :: es => levelAfter v es
  | v, .rsp _ _ :: es => levelAfter v es

/-- What every reachable GPE satisfies. -/
structure GpeInv (c : Config) (g : Gpe) : Prop where
  /-- `G_PC` is at most the script's length, and 0 when idle (R19). -/
  pcInScript : g.pc.toNat ≤ (g.script c).length
  /-- An outstanding transaction is an element of the script (R62). -/
  waitsInScript : g.wait = true → g.pc.toNat < (g.script c).length
  /-- `G_PINQ` is the level the issued part of the script commands from low; so it is 0 when idle (R30). -/
  levelFollows : g.pinq = levelAfter false ((g.script c).take g.pc.toNat)
  /-- The run state `ILL` is entered by a fault only (R102). -/
  illFaulted : g.run = .ill → g.fault = true
  /-- A faulted GPE executes no token (R102). -/
  faultedStops : g.fault = true → g.run = .idle ∨ g.run = .ill

/-- What every reachable SPE satisfies. -/
structure SpeInv (c : Config) (p : Spe) : Prop where
  /-- The frame buffer is in canonical form. -/
  fbCanonical : p.fb.wf = true
  /-- The frame buffer has `N` bytes (R21). -/
  fbInRange : ∀ a, c.n ≤ a → p.fb.read a = Memory.unlisted
  /-- `S_K` is in `0 .. L` (R23). -/
  kInRange : p.k ≤ c.leds
  /-- No colour is encoded before `INIT` (R22, R55). -/
  kBeforeInit : p.init = false → p.k = 0
  /-- `S_PC` counts over the `END` script only (R25). -/
  pcInEnd : p.run ≠ .endTok → p.pc = 0
  /-- `END` executes after `INIT` only (R77). -/
  endAfterInit : p.run = .endTok → p.init = true
  /-- The run state `ILL` is entered by a fault only (R102). -/
  illFaulted : p.run = .ill → p.fault = true
  /-- A faulted SPE executes no token (R102). -/
  faultedStops : p.fault = true → p.run = .idle ∨ p.run = .ill
  /-- A transaction is outstanding only while a token executes (R77). -/
  waitsInRun : p.wait = true → p.run ≠ .idle
  /-- `S_ST` is never `ILLEGAL`: that response comes from `ILL` (R26, R77). -/
  stNotIllegal : p.st ≠ .illegal
  /-- `S_CODE` has `EW` bits (R26). -/
  codeFits : p.code < 2 ^ c.ew
  /-- The code of an `OK` is 0 (R56). -/
  okCode : p.st = .ok → p.code = 0
  /-- Before its response step an `END` has met no failure (R89). -/
  noFailureYet : p.run = .endTok → p.pc ≠ 3 → p.st = .ok

/-- What every reachable state satisfies. -/
structure State.Inv (s : State) : Prop where
  cfgOk : s.cfg.ok = true
  gpe : GpeInv s.cfg s.gpe
  spe : SpeInv s.cfg s.spe

/-! ### The trace the GPE's tokens determine (R75) -/

/-- The script of a word the GPE takes (R62). -/
def tokenScript (c : Config) (t : Token) : List GEvent :=
  match decode .gpe t with
  | .gpeColor r g b w => colorScript c (packColour r g b w)
  | .gpeEnd => endScript c
  | .gpeRsvd00 => illegalScript
  | .gpeRsvd11 => illegalScript
  | .speInit => []
  | .speColor _ _ _ _ => []
  | .speEnd => []
  | .speRsvd11 => []

/-- The word is one the GPE may take without a fault (R55). -/
def tokenLegal (t : Token) : Bool := decide (tokenKind t = 0b01#2) || decide (tokenKind t = 0b10#2)

/-- The trace of a sequence of words: their scripts in order, up to and including the first illegal one, after which no
token is taken (R73, R102). -/
def tokensTrace (c : Config) : List Token → List GEvent
  | [] => []
  | t :: ts => tokenScript c t ++ (if tokenLegal t then tokensTrace c ts else [])

/-- What the GPE has yet to issue: the rest of its script, then the words on `g_tok` unless it is faulted. -/
def Gpe.pending (c : Config) (g : Gpe) : List GEvent :=
  (g.script c).drop (g.pc.toNat + g.wait.toNat) ++ (if g.fault then [] else tokensTrace c g.tok)

/-- What the GPE has issued and what it has yet to issue. -/
def Gpe.fullTrace (c : Config) (g : Gpe) : List GEvent := g.trace ++ g.pending c

/-! ### The events of a run -/

/-- The event answers the element: `pin_err` is free (R109). -/
def answersGpe : GEvent → Move → Bool
  | .pinSet _, .pinAnswer _ => true
  | .delay _, .delayDone => true
  | .rsp _ _, .gpeRspTaken => true
  | _, _ => false

/-- The events issue the elements of a script in order, each followed by its answer. -/
def playsScript : List GEvent → List Move → Bool
  | [], [] => true
  | e :: es, .gpe :: m :: ms => answersGpe e m && playsScript es ms
  | _, _ => false

/-- The events of an SPE write of `k` colours when every transaction is answered `ok` (R91). -/
def speWriteMoves (k : Nat) : List Move :=
  List.replicate (k + 1) .spe ++
    [.spe, .serAnswer .ok, .spe, .serAnswer .ok, .spe, .serAnswer .ok, .spe, .speRspTaken]

/-- `slice(c)`: the pattern bytes of one LED (R91). -/
def slice (c : Config) (x : Colour) : List Byte := (channels c x.r x.g x.b x.w).flatMap (expand c)

/-! ### Measures -/

/-- The number of `PinSet(v)` in a list of elements (R70). -/
def pinCount (v : Bool) (es : List GEvent) : Nat := es.count (.pinSet v)

/-- The number of changes of the commanded level, starting from a level: the source's transitions (R30, R70). -/
def transitions : Bool → List GEvent → Nat
  | _, [] => 0
  | v, .pinSet u :: es => (if u = v then 0 else 1) + transitions u es
  | v, .delay _ :: es => transitions v es
  | v, .rsp _ _ :: es => transitions v es

/-- The sum of the requested delays in microseconds (R129). -/
def requestedTime : List GEvent → Nat
  | [] => 0
  | .delay n :: es => n + requestedTime es
  | .pinSet _ :: es => requestedTime es
  | .rsp _ _ :: es => requestedTime es

/-- The number of 0 bits of a word. -/
def zeroBits (n : Nat) (v : BitVec n) : Nat := (List.range n).countP fun i => !v.getLsbD i

/-- The bits of a byte, most significant first (R35). -/
def byteBits (d : Byte) : List Bool := [7, 6, 5, 4, 3, 2, 1, 0].map fun i => d.getLsbD i

/-- The serial bits of a payload under `P_SER_MSB`: each byte most significant bit first (R39, R110). -/
def wireBits (bs : List Byte) : List Bool := bs.flatMap byteBits

/-- `NIB(b)`: the four serial bits the default table gives a data bit (R38). -/
def nib (b : Bool) : List Bool := [true, b, b, false]

end Sys2Proof.Machine
end

