-- ==== Sys2Proof/Certificates/Slice0/Obligations.lean ====
section
/-! DEFINITION. The statements for the provers, one per numbered rule or group of rules of spec/. Each docstring names the rule
of spec/ it formalises. Every statement is for every configuration, so for every value of the parameters the spec leaves open,
and for every agenda, so for every draw of the collaborators and of the host. -/

open Sys2Proof Sys2Proof.Machine

/-! ### Encoding and configuration -/

/-- R51, R52, R53: decoding what the encoder writes for an instruction gives the instruction back, and encoding what a word
decodes to gives the word back, its ignored payload zeroed. -/
def Obligations.TokenRoundTrip : Prop :=
  (∀ i : Instr, decode (engineOf i) (encode i) = i) ∧
  (∀ (e : Engine) (t : Token),
    engineOf (decode e t) = e ∧
      encode (decode e t) = if tokenKind t = 0b01#2 then t else packToken (tokenKind t) 0 0 0 0)

/-- R52, R54: by bits 33:32 alone every word decodes to exactly one row, for each engine; the payload of a colour is read as
R53 says and any other payload is ignored. -/
def Obligations.EveryWordDecodesByKind : Prop :=
  ∀ t : Token,
    (t &&& 0x300000000#34 = 0x000000000#34 → decode .gpe t = .gpeRsvd00 ∧ decode .spe t = .speInit) ∧
    (t &&& 0x300000000#34 = 0x100000000#34 →
      decode .gpe t = .gpeColor (t.extractLsb' 24 8) (t.extractLsb' 16 8) (t.extractLsb' 8 8) (t.extractLsb' 0 8) ∧
      decode .spe t = .speColor (t.extractLsb' 24 8) (t.extractLsb' 16 8) (t.extractLsb' 8 8) (t.extractLsb' 0 8)) ∧
    (t &&& 0x300000000#34 = 0x200000000#34 → decode .gpe t = .gpeEnd ∧ decode .spe t = .speEnd) ∧
    (t &&& 0x300000000#34 = 0x300000000#34 → decode .gpe t = .gpeRsvd11 ∧ decode .spe t = .speRsvd11) ∧
    (t &&& 0x300000000#34 = 0x000000000#34 ∨ t &&& 0x300000000#34 = 0x100000000#34 ∨
      t &&& 0x300000000#34 = 0x200000000#34 ∨ t &&& 0x300000000#34 = 0x300000000#34)

/-- 95_test_vectors.md section 2.1: words written out from the encoding decode to the instructions they stand for. -/
def Obligations.SpecWordsDecode : Prop :=
  decode .gpe 0x000000000#34 = .gpeRsvd00 ∧ decode .spe 0x000000000#34 = .speInit ∧
  decode .spe 0x0FFFFFFFF#34 = .speInit ∧
  decode .gpe 0x112345678#34 = .gpeColor 0x12 0x34 0x56 0x78 ∧
  decode .spe 0x1FF008001#34 = .speColor 0xFF 0x00 0x80 0x01 ∧
  decode .gpe 0x2DEADBEEF#34 = .gpeEnd ∧ decode .spe 0x200000000#34 = .speEnd ∧
  decode .gpe 0x300000000#34 = .gpeRsvd11 ∧ decode .spe 0x312345678#34 = .speRsvd11

/-- R10, R101: `CfgOK` is the conjunction of its clauses (a) to (g), and a machine whose configuration fails it is refused before
any step. That the refusal at elaboration is a refusal of every step is the model's choice (log entry 13). -/
def Obligations.CfgOkIsItsClauses : Prop :=
  (∀ s : State, s.cfg.ok = false → step s = .refused .configIllFormed) ∧
  ∀ c : Config, c.ok = true ↔
    c.tShort < c.tLong ∧
    80 ≤ c.tReset ∧
    (c.tShort < 2 ^ c.dw ∧ c.tLong < 2 ^ c.dw ∧ c.tLow < 2 ^ c.dw ∧ c.tSettle < 2 ^ c.dw ∧ c.tReset < 2 ^ c.dw ∧
      ∀ d, c.tLow1 = some d → d < 2 ^ c.dw) ∧
    ((c.ch = 3 ∨ c.ch = 4) ∧ 1 ≤ c.leds ∧ c.perLed = 4 * c.ch ∧ c.n = c.perLed * c.leds) ∧
    1 ≤ c.g ∧
    (∀ v u : BitVec 2, v ≠ u → pattern c v ≠ pattern c u) ∧
    300 * c.sclkHz ≤ 8 * c.g * 1000000

/-- R10, R101, R40: an ill-formed configuration is refused before any step, and under a well-formed one every step answers a next
state: no event, no token and no answer stops the machine. Three of the model's choices stand behind it: the refusal is one of
every step (log entry 13), a machine with no event to come answers the same state (log entry 2), and an access outside `FB`,
which by R40 no token can form, would be a fault (log entry 14). -/
def Obligations.OnlyIllFormedConfigurationStops : Prop :=
  ∀ s : State,
    (s.cfg.ok = false → step s = .refused .configIllFormed) ∧
    (s.cfg.ok = true → ∃ t, step s = .next t)

/-- R15: the configuration is read-only: no step and no token changes it. -/
def Obligations.ConfigurationConstant : Prop :=
  ∀ s t : State, (step s = .next t → t.cfg = s.cfg) ∧ (∀ i, exec i s = .next t → t.cfg = s.cfg)

/-! ### Reset and steps -/

/-- R31: the values of the first state after hardware reset that the spec's table gives, in both engines, under every
configuration, which is kept. That `State.reset` is that state under `CFG_REF` with one LED is the model's choice (log entry
1). -/
def Obligations.ResetValues : Prop :=
  (∀ c : Config,
    (State.resetWith c).cfg = c ∧
    (State.resetWith c).gpe.pinq = false ∧ (State.resetWith c).gpe.run = .idle ∧ (State.resetWith c).gpe.pc = 0 ∧
    (State.resetWith c).gpe.fault = false ∧
    (State.resetWith c).spe.init = false ∧ (State.resetWith c).spe.k = 0 ∧ (State.resetWith c).spe.run = .idle ∧
    (State.resetWith c).spe.pc = 0 ∧ (State.resetWith c).spe.st = .ok ∧ (State.resetWith c).spe.code = 0 ∧
    (State.resetWith c).spe.fault = false) ∧
  State.reset = State.resetWith (Config.cfgRef 1)

/-- R31, R114: hardware reset puts every element at its reset value in any state, whatever was in flight; `G_COL` and the `N`
bytes of `FB`, which have none, hold whatever is drawn; the configuration is kept; no transaction is issued and no response
sent. An answer that comes late is ignored: the event `lateAnswer` changes nothing, and neither does an answer, or a take of a
response, for which the engine does not wait, as no engine does after the reset. The model's choices in it: reset is one event
(log entry 16); the words on the channels, the traces, the responses already taken and the events to come are kept (log entry
8); a byte not drawn is 0 (log entry 3); which answers count as late, and that the block can tell them apart (log entry 7). -/
def Obligations.HardwareResetFromAnyState : Prop :=
  (∀ (s : State) (ms : List Move) (col : BitVec 32) (fill : List Byte),
    s.cfg.ok = true → s.agenda = .rst col fill :: ms →
    ∃ m : Memory, m.wf = true ∧ (∀ a, a < s.cfg.n → m.read a = (fill[a]?).getD 0) ∧
      step s = .next
        { cfg := s.cfg
          agenda := ms
          gpe := { pinq := false, col := col, run := .idle, pc := 0, fault := false, wait := false,
                   tok := s.gpe.tok, trace := s.gpe.trace, rsp := s.gpe.rsp }
          spe := { fb := m, init := false, k := 0, run := .idle, pc := 0, st := .ok, code := 0, fault := false,
                   wait := false, tok := s.spe.tok, trace := s.spe.trace, rsp := s.spe.rsp } }) ∧
  (∀ (s : State) (ms : List Move), s.cfg.ok = true →
    (s.agenda = .lateAnswer :: ms → step s = .next (s.withAgenda ms)) ∧
    (∀ err, s.agenda = .pinAnswer err :: ms →
      s.gpe.wait = false ∨ (∀ v, (s.gpe.script s.cfg)[s.gpe.pc.toNat]? ≠ some (.pinSet v)) →
      step s = .next (s.withAgenda ms)) ∧
    (s.agenda = .delayDone :: ms →
      s.gpe.wait = false ∨ (∀ n, (s.gpe.script s.cfg)[s.gpe.pc.toNat]? ≠ some (.delay n)) →
      step s = .next (s.withAgenda ms)) ∧
    (s.agenda = .gpeRspTaken :: ms →
      s.gpe.wait = false ∨ (∀ r code, (s.gpe.script s.cfg)[s.gpe.pc.toNat]? ≠ some (.rsp r code)) →
      step s = .next (s.withAgenda ms)) ∧
    (∀ a, s.agenda = .serAnswer a :: ms → s.spe.wait = false ∨ s.spe.run ≠ .endTok ∨ s.spe.pc = 3 →
      step s = .next (s.withAgenda ms)) ∧
    (s.agenda = .speRspTaken :: ms →
      s.spe.wait = false ∨ s.spe.run = .idle ∨ (s.spe.run = .endTok ∧ s.spe.pc ≠ 3) →
      step s = .next (s.withAgenda ms)))

/-- R62, R77: when an engine moves that is idle and waits for no answer, the step is `exec` of the instruction that the oldest
word on its channel decodes to; the step adds only that the event is taken from the agenda, the model's own field (log entry
2). -/
def Obligations.StepRunsTheDecodedToken : Prop :=
  ∀ (s : State) (t : Token) (ts : List Token) (ms : List Move), s.cfg.ok = true →
    (s.agenda = .gpe :: ms → s.gpe.wait = false → s.gpe.run = .idle → s.gpe.tok = t :: ts →
      step s = exec (decode .gpe t) (s.withAgenda ms)) ∧
    (s.agenda = .spe :: ms → s.spe.wait = false → s.spe.run = .idle → s.spe.tok = t :: ts →
      step s = exec (decode .spe t) (s.withAgenda ms))

/-- The host's placement of a table word (log entry 9, the model's choice): the very next step is `exec` of the instruction
that the decoder reads from the word. -/
def Obligations.PlacedWordRunsNext : Prop :=
  ∀ (s : State) (nbits w : Nat) (i : Instr), s.cfg.ok = true → decodeTableWord nbits w = some i →
    step (s.withFetchWord nbits w) = exec i ((s.withFetchWord nbits w).withAgenda s.agenda)

/-- R63, R78, R102: an engine that executes a token, or is faulted, takes no token: one offered to it waits and nothing
changes, and, short of hardware reset, no step takes a word off its channel, to which the host may still add, nor changes the frame
buffer while the SPE executes `END`. What `exec` means for a token its engine cannot take is the model's reading of R63 and R78
(log entry 15). -/
def Obligations.BusyOrFaultedEngineTakesNothing : Prop :=
  (∀ (i : Instr) (s : State),
    (engineOf i = .gpe → s.gpe.run ≠ .idle ∨ s.gpe.fault = true → exec i s = .next s) ∧
    (engineOf i = .spe → s.spe.run ≠ .idle ∨ s.spe.fault = true → exec i s = .next s)) ∧
  (∀ s t : State, step s = .next t → (∀ col fill ms, s.agenda ≠ .rst col fill :: ms) →
    (s.gpe.run ≠ .idle ∨ s.gpe.fault = true → ∃ ws, t.gpe.tok = s.gpe.tok ++ ws) ∧
    (s.spe.run ≠ .idle ∨ s.spe.fault = true → (∃ ws, t.spe.tok = s.spe.tok ++ ws) ∧ t.spe.fb = s.spe.fb))

/-! ### The GPE's tokens -/

/-- R62, R71: `GPE.COLOR` is taken by an idle unfaulted GPE: the colour is packed with red in bits 31:24, the script starts
at 0, and that script is the four bytes' in the order red, green, blue, white. -/
def Obligations.GpeColorTaken : Prop :=
  ∀ (r g b w : Byte) (s : State), s.gpe.run = .idle → s.gpe.fault = false →
    ∃ t, exec (.gpeColor r g b w) s = .next t ∧
      t = s.withGpe { s.gpe with tok := s.gpe.tok.tail, col := packColour r g b w, run := .color, pc := 0 } ∧
      t.gpe.col.toNat = r.toNat * 2 ^ 24 + g.toNat * 2 ^ 16 + b.toNat * 2 ^ 8 + w.toNat ∧
      t.gpe.script t.cfg = byteScript s.cfg r ++ byteScript s.cfg g ++ byteScript s.cfg b ++ byteScript s.cfg w

/-- R62, R72: `GPE.END` is taken by an idle unfaulted GPE, and its script is `[PinSet(0), Delay(T_RESET), Rsp(OK, 0)]`. -/
def Obligations.GpeEndTaken : Prop :=
  ∀ s : State, s.gpe.run = .idle → s.gpe.fault = false →
    ∃ t, exec .gpeEnd s = .next t ∧
      t = s.withGpe { s.gpe with tok := s.gpe.tok.tail, run := .endTok, pc := 0 } ∧
      t.gpe.script t.cfg = [.pinSet false, .delay s.cfg.tReset, .rsp .ok 0]

/-- R55, R102: the two reserved kinds on the GPE are taken from the channel and set the sticky fault; the script is the one
`ILLEGAL` response; nothing else changes. -/
def Obligations.GpeReservedTokensFault : Prop :=
  ∀ (i : Instr) (s : State), i = .gpeRsvd00 ∨ i = .gpeRsvd11 → s.gpe.run = .idle → s.gpe.fault = false →
    ∃ t, exec i s = .next t ∧
      t = s.withGpe { s.gpe with tok := s.gpe.tok.tail, fault := true, run := .ill, pc := 0 } ∧
      t.gpe.script t.cfg = [.rsp .illegal 0]

/-- Frame of the GPE's four tokens (R3, R62): the SPE with every byte of `FB`, the configuration, `G_PINQ`, the outstanding
bit, the trace and the responses are kept; `G_COL` is kept by all but `COLOR`; `G_FAULT` is kept by the legal tokens. -/
def Obligations.GpeTokensFrame : Prop :=
  ∀ (i : Instr) (s t : State), engineOf i = .gpe → exec i s = .next t →
    t.cfg = s.cfg ∧ t.spe = s.spe ∧ t.agenda = s.agenda ∧
    t.gpe.pinq = s.gpe.pinq ∧ t.gpe.wait = s.gpe.wait ∧ t.gpe.trace = s.gpe.trace ∧ t.gpe.rsp = s.gpe.rsp ∧
    (∀ a, t.spe.fb.read a = s.spe.fb.read a) ∧
    ((∀ r g b w, i ≠ .gpeColor r g b w) → t.gpe.col = s.gpe.col) ∧
    (i ≠ .gpeRsvd00 → i ≠ .gpeRsvd11 → t.gpe.fault = s.gpe.fault)

/-! ### The GPE's script steps -/

/-- R62, R66, R67, R68: the waveforms of a 1 and of a 0. Each begins with the settling delay, and the 1 bit's low hold is
requested only when `T_LOW1` is present. -/
def Obligations.BitWaveforms : Prop :=
  ∀ c : Config,
    (c.tLow1 = none → bitScript c true = [.delay c.tSettle, .pinSet true, .delay c.tLong, .pinSet false]) ∧
    (∀ d, c.tLow1 = some d →
      bitScript c true = [.delay c.tSettle, .pinSet true, .delay c.tLong, .pinSet false, .delay d]) ∧
    bitScript c false = [.delay c.tSettle, .pinSet true, .delay c.tShort, .pinSet false, .delay c.tLow]

/-- R35, R69, R71: a colour is sent as its 32 bits, bit 31 first, so every byte most significant bit first. -/
def Obligations.ColourIsItsBitsMsbFirst : Prop :=
  ∀ (c : Config) (col : BitVec 32),
    colorScript c col = (List.range 32).flatMap fun i => bitScript c (col.getLsbD (31 - i))

/-- R69: the length of a byte's script, and that of a colour's. -/
def Obligations.ScriptLengths : Prop :=
  ∀ c : Config,
    (∀ d : Byte, (byteScript c d).length =
      32 + zeroBits 8 d + (if c.tLow1.isSome then 8 - zeroBits 8 d else 0)) ∧
    (∀ col : BitVec 32, (colorScript c col).length =
      128 + zeroBits 32 col + (if c.tLow1.isSome then 32 - zeroBits 32 col else 0))

/-- R70, R30: whatever the byte, its script holds 8 `PinSet(1)` and 8 `PinSet(0)`, each a change of the commanded level, and
leaves the level low; a colour's holds 64, all changes; the `PinSet(0)` of `END` is none. -/
def Obligations.SixteenTransitionsPerByte : Prop :=
  ∀ c : Config,
    (∀ d : Byte, pinCount true (byteScript c d) = 8 ∧ pinCount false (byteScript c d) = 8 ∧
      transitions false (byteScript c d) = 16 ∧ levelAfter false (byteScript c d) = false) ∧
    (∀ col : BitVec 32, pinCount true (colorScript c col) + pinCount false (colorScript c col) = 64 ∧
      transitions false (colorScript c col) = 64 ∧ levelAfter false (colorScript c col) = false) ∧
    pinCount false (endScript c) = 1 ∧ pinCount true (endScript c) = 0 ∧ transitions false (endScript c) = 0

/-- R56, R58, R75: whatever the GPE executes, every delay it requests is one of its timing constants and fits `DW` bits, and
every response it gives is `OK` or `ILLEGAL` with code 0. -/
def Obligations.GpeScriptElements : Prop :=
  ∀ (c : Config) (g : Gpe), c.ok = true →
    (∀ n, GEvent.delay n ∈ g.script c → n ∈ c.durations ∧ n < 2 ^ c.dw) ∧
    (∀ st code, GEvent.rsp st code ∈ g.script c → (st = .ok ∨ st = .illegal) ∧ code = 0)

/-- R129: the time one colour requests, by the number `z` of its 0 bits, and the time `END` requests. -/
def Obligations.RequestedTimeOfAColour : Prop :=
  ∀ (c : Config) (col : BitVec 32),
    requestedTime (colorScript c col) =
      32 * c.tSettle + zeroBits 32 col * (c.tShort + c.tLow) + (32 - zeroBits 32 col) * (c.tLong + c.tLow1.getD 0) ∧
    requestedTime (endScript c) = c.tReset

/-- R62: a GPE that executes a token and waits for no answer issues the element at `G_PC`, which joins the trace, and then
waits (log entry 4); past the last element the token retires. -/
def Obligations.GpeIssuesOrRetires : Prop :=
  ∀ (s : State) (ms : List Move), s.cfg.ok = true → s.agenda = .gpe :: ms → s.gpe.wait = false → s.gpe.run ≠ .idle →
    (∀ e, (s.gpe.script s.cfg)[s.gpe.pc.toNat]? = some e →
      step s = .next ((s.withAgenda ms).withGpe { s.gpe with trace := s.gpe.trace ++ [e], wait := true })) ∧
    (s.gpe.pc.toNat = (s.gpe.script s.cfg).length →
      step s = .next ((s.withAgenda ms).withGpe { s.gpe with run := .idle, pc := 0 }))

/-- R64, R97: a `PinSet` answered with failure or with success alike writes `G_PINQ` and advances `G_PC`; nothing else
changes. That the two are written when the answer comes is read from R64's order (log entry 6). -/
def Obligations.PinFailureIsDiscarded : Prop :=
  ∀ (s : State) (ms : List Move) (err v : Bool), s.cfg.ok = true → s.agenda = .pinAnswer err :: ms →
    s.gpe.wait = true → (s.gpe.script s.cfg)[s.gpe.pc.toNat]? = some (.pinSet v) →
    step s = .next ((s.withAgenda ms).withGpe { s.gpe with pinq := v, pc := s.gpe.pc + 1, wait := false })

/-- R65, R62, R56: an answered `Delay` advances `G_PC` only; a response the host takes is the response word and advances
`G_PC`. -/
def Obligations.GpeDelayAndResponseAnswered : Prop :=
  ∀ (s : State) (ms : List Move), s.cfg.ok = true → s.gpe.wait = true →
    (∀ n, s.agenda = .delayDone :: ms → (s.gpe.script s.cfg)[s.gpe.pc.toNat]? = some (.delay n) →
      step s = .next ((s.withAgenda ms).withGpe { s.gpe with pc := s.gpe.pc + 1, wait := false })) ∧
    (∀ st code, s.agenda = .gpeRspTaken :: ms → (s.gpe.script s.cfg)[s.gpe.pc.toNat]? = some (.rsp st code) →
      step s = .next ((s.withAgenda ms).withGpe
        { s.gpe with pc := s.gpe.pc + 1, wait := false, rsp := s.gpe.rsp ++ [responseWord s.cfg st code] }))

/-- R62, R71, R72, R102, R109: a whole token of the GPE. Offered to an idle unfaulted GPE, whatever `pin_err` each `PinSet` is
answered with, the word's script is issued element by element, nothing else is, and the GPE is idle again: faulted exactly
if the word is illegal, with one response word for `END` and for an illegal word and none for `COLOR`, the line commanded low
after a legal token, and the SPE as it was. -/
def Obligations.GpeTokenRunsItsScript : Prop :=
  ∀ (s : State) (t : Token) (ts : List Token) (ms rest : List Move),
    s.cfg.ok = true → s.gpe.run = .idle → s.gpe.fault = false → s.gpe.wait = false → s.gpe.pinq = false →
    s.gpe.tok = t :: ts → s.agenda = .gpe :: (ms ++ .gpe :: rest) → playsScript (tokenScript s.cfg t) ms = true →
    runSteps (ms.length + 2) s = .next
      { cfg := s.cfg
        agenda := rest
        spe := s.spe
        gpe := { pinq := false
                 col := if tokenKind t = 0b01#2 then t.extractLsb' 0 32 else s.gpe.col
                 run := .idle
                 pc := 0
                 fault := !tokenLegal t
                 wait := false
                 tok := ts
                 trace := s.gpe.trace ++ tokenScript s.cfg t
                 rsp := s.gpe.rsp ++
                   (if tokenKind t = 0b01#2 then []
                    else if tokenKind t = 0b10#2 then [responseWord s.cfg .ok 0]
                    else [responseWord s.cfg .illegal 0]) } }

/-- R73, R74: the trace of a whole write, to which the tokens of `GPE.write cs` commit an idle unfaulted GPE: the colours'
scripts in order, then `PinSet(0)`, `Delay(T_RESET)`, `Rsp(OK, 0)`, with nothing between; for `cs = []` the `END` alone. -/
def Obligations.GpeWriteTrace : Prop :=
  ∀ (c : Config) (g : Gpe) (cs : List Colour), g.run = .idle → g.fault = false →
    g.tok = (gpeWrite cs).map encode →
    g.fullTrace c = g.trace ++ cs.flatMap (fun x => colorScript c (packColour x.r x.g x.b x.w)) ++
      [.pinSet false, .delay c.tReset, .rsp .ok 0]

/-- R75, R7: what the GPE has issued and will issue is a function of the configuration and the tokens alone: no step changes
it, except that a word the host sends adds its script at the end, if the GPE is not faulted and no word before it is illegal,
and that hardware reset drops the token in flight. So no answer of a collaborator, no step of the SPE and no order of events
changes the trace. -/
def Obligations.GpeTraceIsAFunctionOfItsTokens : Prop :=
  ∀ (s t : State), step s = .next t → (∀ col fill ms, s.agenda ≠ .rst col fill :: ms) →
    ((∀ w ms, s.agenda ≠ .gpeToken w :: ms) → t.gpe.fullTrace t.cfg = s.gpe.fullTrace s.cfg) ∧
    (∀ w ms, s.agenda = .gpeToken w :: ms →
      t.gpe.fullTrace t.cfg = s.gpe.fullTrace s.cfg ++
        (if s.gpe.fault = false ∧ ∀ x ∈ s.gpe.tok, tokenLegal x = true then tokenScript s.cfg w else []))

/-! ### The SPE's tokens -/

/-- R80: `SPE.INIT` with `S_K = 0`, on an idle unfaulted SPE, zeroes every byte of `FB`, sets `S_INIT` and leaves `S_K` at 0,
whether or not `S_INIT` was set; nothing else changes. -/
def Obligations.SpeInitZeroesTheBuffer : Prop :=
  ∀ s : State, s.spe.fb.wf = true → s.spe.run = .idle → s.spe.fault = false → s.spe.k = 0 →
    ∃ m : Memory, exec .speInit s = .next
        (s.withSpe { s.spe with tok := s.spe.tok.tail, fb := m, init := true, k := 0 }) ∧
      m.wf = true ∧ (∀ a, a < s.cfg.n → m.read a = 0) ∧ (∀ a, s.cfg.n ≤ a → m.read a = s.spe.fb.read a)

/-- R81, R82, R33, R36: `SPE.COLOR` with `S_INIT = 1` and `S_K < L`, on an idle unfaulted SPE, writes slot `S_K`: the byte at
`addr(S_K, c, p)` becomes `PT[pair(chan[c], p)]` for every expanded channel `c` and pair `p`, every byte outside the slot is
kept, and `S_K` is incremented; nothing else changes. -/
def Obligations.SpeColorWritesItsSlot : Prop :=
  ∀ (r g b w : Byte) (s : State), s.cfg.ok = true → s.spe.fb.wf = true → s.spe.run = .idle → s.spe.fault = false →
    s.spe.init = true → s.spe.k < s.cfg.leds →
    ∃ m : Memory, exec (.speColor r g b w) s = .next
        (s.withSpe { s.spe with tok := s.spe.tok.tail, fb := m, k := s.spe.k + 1 }) ∧
      m.wf = true ∧
      (∀ ch p, ch < s.cfg.ch → p < 4 →
        m.read (addr s.cfg s.spe.k ch p) = pattern s.cfg (pair (([r, g, b, w][ch]?).getD 0) p)) ∧
      (∀ a, a < addr s.cfg s.spe.k 0 0 ∨ addr s.cfg (s.spe.k + 1) 0 0 ≤ a → m.read a = s.spe.fb.read a)

/-- R83: a colour beyond the last slot is taken and has no effect on any state. -/
def Obligations.ExcessColourIsDropped : Prop :=
  ∀ (r g b w : Byte) (s : State), s.spe.run = .idle → s.spe.fault = false → s.spe.init = true →
    s.cfg.leds ≤ s.spe.k →
    exec (.speColor r g b w) s = .next (s.withSpe { s.spe with tok := s.spe.tok.tail })

/-- R77, R85: `SPE.END` with `S_INIT = 1` on an idle unfaulted SPE starts its script with the status `(OK, 0)`. -/
def Obligations.SpeEndTaken : Prop :=
  ∀ s : State, s.spe.run = .idle → s.spe.fault = false → s.spe.init = true →
    exec .speEnd s = .next
      (s.withSpe { s.spe with tok := s.spe.tok.tail, st := .ok, code := 0, run := .endTok, pc := 0 })

/-- R55, R77, R102: the illegal tokens of the SPE, by encoding and by state: each is taken, sets the sticky fault and starts
the one `ILLEGAL` response; `FB`, `S_K`, `S_INIT`, `S_ST` and `S_CODE` are left as they were. -/
def Obligations.SpeIllegalTokensFault : Prop :=
  ∀ (i : Instr) (s : State), s.spe.run = .idle → s.spe.fault = false →
    (i = .speRsvd11 ∨ (i = .speInit ∧ s.spe.k ≠ 0) ∨ (i = .speEnd ∧ s.spe.init = false) ∨
      (∃ r g b w, i = .speColor r g b w) ∧ s.spe.init = false) →
    exec i s = .next (s.withSpe { s.spe with tok := s.spe.tok.tail, fault := true, run := .ill, pc := 0 })

/-- Frame of the SPE's four tokens (R3, R41): the GPE, the configuration, the outstanding bit, the trace and the responses are
kept; `S_ST` and `S_CODE` are kept by all but `END`; `S_INIT` is never cleared; and every byte of `FB` is kept except the `N`
bytes of an `INIT` and the slot `S_K` of a `COLOR`. -/
def Obligations.SpeTokensFrame : Prop :=
  ∀ (i : Instr) (s t : State), engineOf i = .spe → s.cfg.ok = true → s.spe.fb.wf = true → exec i s = .next t →
    t.cfg = s.cfg ∧ t.gpe = s.gpe ∧ t.agenda = s.agenda ∧
    t.spe.wait = s.spe.wait ∧ t.spe.trace = s.spe.trace ∧ t.spe.rsp = s.spe.rsp ∧
    (i ≠ .speEnd → t.spe.st = s.spe.st ∧ t.spe.code = s.spe.code) ∧
    (s.spe.init = true → t.spe.init = true) ∧
    ((∀ r g b w, i ≠ .speColor r g b w) → i ≠ .speInit → t.spe.k = s.spe.k) ∧
    (i = .speEnd ∨ i = .speRsvd11 → ∀ a, t.spe.fb.read a = s.spe.fb.read a) ∧
    (i = .speInit → ∀ a, s.cfg.n ≤ a → t.spe.fb.read a = s.spe.fb.read a) ∧
    ((∃ r g b w, i = .speColor r g b w) →
      ∀ a, a < addr s.cfg s.spe.k 0 0 ∨ addr s.cfg (s.spe.k + 1) 0 0 ≤ a → t.spe.fb.read a = s.spe.fb.read a)

/-! ### The frame buffer and the expansion -/

/-- R33, R40: the address map, and that it is one-to-one from slots, channels and pairs onto `0 .. N-1`. -/
def Obligations.AddressMapIsABijection : Prop :=
  ∀ c : Config, c.ok = true →
    (∀ k ch p, addr c k ch p = k * c.perLed + ch * 4 + p) ∧
    (∀ k ch p, k < c.leds → ch < c.ch → p < 4 → addr c k ch p < c.n) ∧
    (∀ k ch p k' ch' p', ch < c.ch → p < 4 → ch' < c.ch → p' < 4 →
      addr c k ch p = addr c k' ch' p' → k = k' ∧ ch = ch' ∧ p = p') ∧
    (∀ a, a < c.n → ∃ k ch p, k < c.leds ∧ ch < c.ch ∧ p < 4 ∧ addr c k ch p = a)

/-- R36, R10 (f): the expansion looks up `d[7:6], d[5:4], d[3:2], d[1:0]` in that order, and different bytes have different
expansions. -/
def Obligations.ExpansionIsMsbPairFirstAndInjective : Prop :=
  ∀ (c : Config) (d : Byte),
    expand c d = [pattern c (d.extractLsb' 6 2), pattern c (d.extractLsb' 4 2), pattern c (d.extractLsb' 2 2),
      pattern c (d.extractLsb' 0 2)] ∧
    (c.ok = true → ∀ d', expand c d = expand c d' → d = d')

/-- R37, R38: with the default table, each entry is the group of the high bit of its index and then that of the low bit; so the
expansion of a byte, read most significant bit first, is `1000` for each 0 bit and `1110` for each 1 bit of the byte, most
significant first. -/
def Obligations.DefaultTableShapesBits : Prop :=
  ∀ c : Config, c.pt = #v[0x88, 0x8E, 0xE8, 0xEE] →
    nib false = [true, false, false, false] ∧ nib true = [true, true, true, false] ∧
    (∀ v : BitVec 2, byteBits (pattern c v) = nib (v.getLsbD 1) ++ nib (v.getLsbD 0)) ∧
    (∀ d : Byte, wireBits (expand c d) = (byteBits d).flatMap nib)

/-- R21, R41, R45: a step that changes any byte of `FB` is a hardware reset or the take of an `INIT` or a `COLOR`; so no
transfer, failure or response changes the frame. -/
def Obligations.OnlyInitAndColourWriteTheBuffer : Prop :=
  ∀ (s t : State), step s = .next t → t.spe.fb ≠ s.spe.fb →
    (∃ col fill ms, s.agenda = .rst col fill :: ms) ∨
    (∃ w ws ms, s.agenda = .spe :: ms ∧ s.spe.run = .idle ∧ s.spe.fault = false ∧ s.spe.tok = w :: ws ∧
      (tokenKind w = 0b00#2 ∨ tokenKind w = 0b01#2))

/-! ### The SPE's script steps -/

/-- R77, R85, R86, R87, R88, R90: what the SPE issues at each point of a token: the whole frame buffer, then `G` zero bytes,
then the flush, then the response; for an illegal token the `ILLEGAL` response. -/
def Obligations.SpeIssuesInOrder : Prop :=
  ∀ (s : State) (ms : List Move), s.cfg.ok = true → s.agenda = .spe :: ms → s.spe.wait = false →
    (s.spe.run = .endTok → s.spe.pc = 0 → step s = .next ((s.withAgenda ms).withSpe
      { s.spe with trace := s.spe.trace ++ [.serWrite ((List.range s.cfg.n).map s.spe.fb.read)], wait := true })) ∧
    (s.spe.run = .endTok → s.spe.pc = 1 → step s = .next ((s.withAgenda ms).withSpe
      { s.spe with trace := s.spe.trace ++ [.serWrite (List.replicate s.cfg.g 0)], wait := true })) ∧
    (s.spe.run = .endTok → s.spe.pc = 2 → step s = .next ((s.withAgenda ms).withSpe
      { s.spe with trace := s.spe.trace ++ [.serFlush], wait := true })) ∧
    (s.spe.run = .endTok → s.spe.pc = 3 → step s = .next ((s.withAgenda ms).withSpe
      { s.spe with trace := s.spe.trace ++ [.rsp s.spe.st s.spe.code], wait := true })) ∧
    (s.spe.run = .ill → step s = .next ((s.withAgenda ms).withSpe
      { s.spe with trace := s.spe.trace ++ [.rsp .illegal 0], wait := true }))

/-- R86, R87, R88: a transfer or a flush answered `ok` advances `S_PC` by 1 and changes nothing else. -/
def Obligations.SerialSuccessAdvances : Prop :=
  ∀ (s : State) (ms : List Move), s.cfg.ok = true → s.agenda = .serAnswer .ok :: ms → s.spe.wait = true →
    s.spe.run = .endTok → s.spe.pc ≠ 3 →
    step s = .next ((s.withAgenda ms).withSpe { s.spe with pc := s.spe.pc + 1, wait := false })

/-- R89, R99, R100, R105: a failed data or gap transfer records `WRITE_ERR`, a failed flush `FLUSH_ERR`, with the `EW` bits of
the code, and goes straight to the response; `FB`, `S_K`, `S_INIT` and `S_FAULT` are kept. -/
def Obligations.SerialFailureAborts : Prop :=
  ∀ (s : State) (ms : List Move) (code : Nat), s.cfg.ok = true → s.agenda = .serAnswer (.err code) :: ms →
    s.spe.wait = true → s.spe.run = .endTok → code < 2 ^ s.cfg.ew →
    (s.spe.pc = 0 ∨ s.spe.pc = 1 → step s = .next ((s.withAgenda ms).withSpe
      { s.spe with st := .writeErr, code := code, pc := 3, wait := false })) ∧
    (s.spe.pc = 2 → step s = .next ((s.withAgenda ms).withSpe
      { s.spe with st := .flushErr, code := code, pc := 3, wait := false }))

/-- R90, R77: when the host takes the response of an `END`, the response word carries `S_ST` and `S_CODE`, `S_K` is 0 and the
SPE idle, and `FB` is kept; when it takes the response of an illegal token, `S_K` is kept too. -/
def Obligations.SpeResponseEndsTheToken : Prop :=
  ∀ (s : State) (ms : List Move), s.cfg.ok = true → s.agenda = .speRspTaken :: ms → s.spe.wait = true →
    (s.spe.run = .endTok → s.spe.pc = 3 → step s = .next ((s.withAgenda ms).withSpe
      { s.spe with rsp := s.spe.rsp ++ [responseWord s.cfg s.spe.st s.spe.code],
                   k := 0, run := .idle, pc := 0, wait := false })) ∧
    (s.spe.run = .ill → step s = .next ((s.withAgenda ms).withSpe
      { s.spe with rsp := s.spe.rsp ++ [responseWord s.cfg .illegal 0], run := .idle, pc := 0, wait := false }))

/-- R91, R84, R83, R92: a whole write of the SPE when every transaction is answered `ok`. From an idle SPE with `S_INIT = 1`
and `S_K = 0`, the data payload is the slices of the first `min(k, L)` colours followed by what the frame buffer held before
in the slots not overwritten; then the gap, the flush and `Rsp(OK, 0)`; the frame buffer holds that payload after, `S_K` is 0
and the GPE is as it was. For `cs = []` the frame is sent as it stands. -/
def Obligations.SpeWriteSendsTheFrame : Prop :=
  ∀ (s : State) (cs : List Colour) (ts : List Token) (rest : List Move),
    s.cfg.ok = true → s.spe.fb.wf = true → s.spe.run = .idle → s.spe.fault = false → s.spe.wait = false →
    s.spe.init = true → s.spe.k = 0 → s.spe.tok = (speWrite cs).map encode ++ ts →
    s.agenda = speWriteMoves cs.length ++ rest →
    ∃ m : Memory, m.wf = true ∧
      frame s.cfg m = (cs.take s.cfg.leds).flatMap (slice s.cfg) ++
        (frame s.cfg s.spe.fb).drop (min cs.length s.cfg.leds * s.cfg.perLed) ∧
      runSteps (cs.length + 9) s = .next
        { cfg := s.cfg
          agenda := rest
          gpe := s.gpe
          spe := { s.spe with
            fb := m
            st := .ok
            code := 0
            pc := 0
            tok := ts
            trace := s.spe.trace ++
              [.serWrite (frame s.cfg m), .serWrite (List.replicate s.cfg.g 0), .serFlush, .rsp .ok 0]
            rsp := s.spe.rsp ++ [responseWord s.cfg .ok 0] } }

/-- R93: idempotence, when every transaction is answered `ok`. After a fresh `INIT`, the same colours give the same payloads
whatever the frame buffer, the traces and the GPE were before: the slices of the first `min(k, L)` colours, then zero bytes in
the slots not written. -/
def Obligations.FreshWriteIsIdempotent : Prop :=
  ∀ (s : State) (cs : List Colour) (ts : List Token) (rest : List Move),
    s.cfg.ok = true → s.spe.fb.wf = true → s.spe.run = .idle → s.spe.fault = false → s.spe.wait = false →
    s.spe.k = 0 → s.spe.tok = encode .speInit :: ((speWrite cs).map encode ++ ts) →
    s.agenda = .spe :: (speWriteMoves cs.length ++ rest) →
    ∃ u, runSteps (cs.length + 10) s = .next u ∧
      u.spe.trace = s.spe.trace ++
        [.serWrite ((cs.take s.cfg.leds).flatMap (slice s.cfg) ++
            List.replicate (s.cfg.n - min cs.length s.cfg.leds * s.cfg.perLed) 0),
         .serWrite (List.replicate s.cfg.g 0), .serFlush, .rsp .ok 0]

/-! ### Responses -/

/-- R56: the response word is the status above the `EW` bits of the code, and a host can tell every status and code from it;
under `EW = 8` the words are the spec's. -/
def Obligations.ResponseWordIsDecodable : Prop :=
  (∀ (c : Config) (st st' : Status) (code code' : Nat), code < 2 ^ c.ew → code' < 2 ^ c.ew →
    responseWord c st code < 2 ^ (c.ew + 2) ∧
    (responseWord c st code = responseWord c st' code' → st = st' ∧ code = code')) ∧
  (∀ c : Config, c.ew = 8 →
    responseWord c .ok 0 = 0x000 ∧ responseWord c .writeErr 0x5A = 0x15A ∧
    responseWord c .flushErr 0x01 = 0x201 ∧ responseWord c .illegal 0 = 0x300)

/-! ### Whole-machine rules -/

/-- R30, R19, R21, R23, R25, R26 and R102 as one invariant that every step keeps, from every state that has it: `G_PINQ = 0`
whenever the GPE is idle, `G_PC` inside its script, `FB` canonical and of `N` bytes, `S_K <= L`, `S_PC = 0` outside `END`, the
status `OK` until a failure, and no faulted engine executing a token. -/
def Obligations.InvariantKeptByEveryStep : Prop :=
  ∀ s t : State, s.Inv → step s = .next t → t.Inv

/-- The invariant holds at reset under every well-formed configuration, so at `State.reset`, which is one of them (log entry 1);
and it says of an idle GPE that `G_PINQ = 0` (R30). -/
def Obligations.InvariantAtReset : Prop :=
  (∀ c : Config, c.ok = true → (State.resetWith c).Inv) ∧
  State.reset.Inv ∧
  (∀ s : State, s.Inv → s.gpe.run = .idle → s.gpe.pinq = false)

/-- R3, R112: the engines do not interact. Two machines alike in configuration and events, and in one engine, are alike in that
engine after a step, whatever the other engine is; and what one engine's events do leaves the other as it was. -/
def Obligations.EnginesDoNotInteract : Prop :=
  (∀ s s' t t' : State, s.cfg = s'.cfg → s.agenda = s'.agenda → step s = .next t → step s' = .next t' →
    (s.gpe = s'.gpe → t.gpe = t'.gpe) ∧ (s.spe = s'.spe → t.spe = t'.spe)) ∧
  (∀ (s t : State) (m : Move) (ms : List Move), s.agenda = m :: ms → step s = .next t →
    ((m = .gpe ∨ (∃ e, m = .pinAnswer e) ∨ m = .delayDone ∨ m = .gpeRspTaken ∨ (∃ w, m = .gpeToken w)) →
      t.spe = s.spe) ∧
    ((m = .spe ∨ (∃ a, m = .serAnswer a) ∨ m = .speRspTaken ∨ (∃ w, m = .speToken w)) → t.gpe = s.gpe))

/-- R6, R46, R62, R77: an engine has one transaction outstanding at a time. A step adds at most one element to an engine's trace,
and only when that engine waits for no answer, after which it waits for one. An engine's own move changes nothing at all when
the engine has no enabled step: while it waits for an answer, whatever it executes; when it is idle with no word on its channel
or is idle and faulted; and, in the GPE, past the end of its script, where no run leads. With no event to come nothing changes
either (log entry 2). The bit that says that an engine waits is the model's reading of R62 and R77 (log entry 4). -/
def Obligations.OneTransactionOutstanding : Prop :=
  (∀ s t : State, step s = .next t →
    (t.gpe.trace = s.gpe.trace ∨
      (s.gpe.wait = false ∧ t.gpe.wait = true ∧ ∃ e, t.gpe.trace = s.gpe.trace ++ [e])) ∧
    (t.spe.trace = s.spe.trace ∨
      (s.spe.wait = false ∧ t.spe.wait = true ∧ ∃ e, t.spe.trace = s.spe.trace ++ [e]))) ∧
  (∀ (s : State) (ms : List Move), s.cfg.ok = true →
    (s.agenda = .gpe :: ms →
      s.gpe.wait = true ∨ (s.gpe.run = .idle ∧ (s.gpe.tok = [] ∨ s.gpe.fault = true)) ∨
        (s.gpe.run ≠ .idle ∧ (s.gpe.script s.cfg).length < s.gpe.pc.toNat) →
      step s = .next (s.withAgenda ms)) ∧
    (s.agenda = .spe :: ms →
      s.spe.wait = true ∨ (s.spe.run = .idle ∧ (s.spe.tok = [] ∨ s.spe.fault = true)) →
      step s = .next (s.withAgenda ms)) ∧
    (s.agenda = [] → step s = .next s))

/-- R102, R20, R27: the fault is sticky and final for the channel. Until hardware reset a faulted engine stays faulted and
takes no word from its channel, to which the host may still add; and a state with a faulted engine is never final, whatever
else a final state is (log entry 19). -/
def Obligations.FaultIsStickyUntilReset : Prop :=
  ∀ s t : State, step s = .next t → (∀ col fill ms, s.agenda ≠ .rst col fill :: ms) →
    (s.gpe.fault = true → t.gpe.fault = true ∧ (∃ ws, t.gpe.tok = s.gpe.tok ++ ws) ∧ t.final = false) ∧
    (s.spe.fault = true → t.spe.fault = true ∧ (∃ ws, t.spe.tok = s.spe.tok ++ ws) ∧ t.final = false)

/-- R49, R48, R113: the host may send any word at any time. The word joins the end of its engine's channel, none is lost, doubled
or put before another, and nothing else changes. That the send always succeeds, the channel having no bound, is the model's
choice (log entry 5). -/
def Obligations.HostWordJoinsItsChannel : Prop :=
  ∀ (s : State) (w : Token) (ms : List Move), s.cfg.ok = true →
    (s.agenda = .gpeToken w :: ms →
      step s = .next { cfg := s.cfg, agenda := ms, spe := s.spe, gpe := { s.gpe with tok := s.gpe.tok ++ [w] } }) ∧
    (s.agenda = .speToken w :: ms →
      step s = .next { cfg := s.cfg, agenda := ms, gpe := s.gpe, spe := { s.spe with tok := s.spe.tok ++ [w] } })
end

