-- ==== Sys2Proof/Laws/Decode.lean ====
section
/-! SUPPORT. The fields of a packed token and of a packed colour. -/

namespace Sys2Proof

/-- Bit `i` of a packed token. -/
theorem getLsbD_packToken (kind : BitVec 2) (r g b w : Byte) (i : Nat) :
    (packToken kind r g b w).getLsbD i =
      if i < 8 then w.getLsbD i else if i < 16 then b.getLsbD (i - 8) else if i < 24 then g.getLsbD (i - 16)
      else if i < 32 then r.getLsbD (i - 24) else kind.getLsbD (i - 32) := by
  simp only [packToken, BitVec.getLsbD_cast, BitVec.getLsbD_append, Nat.sub_sub]
  by_cases h8 : i < 8
  · rw [if_pos h8, if_pos h8]
  by_cases h16 : i < 16
  · rw [if_neg h8, if_neg h8, if_pos (by omega), if_pos h16]
  by_cases h24 : i < 24
  · rw [if_neg h8, if_neg h8, if_neg (by omega), if_neg h16, if_pos (by omega), if_pos h24]
  by_cases h32 : i < 32
  · rw [if_neg h8, if_neg h8, if_neg (by omega), if_neg h16, if_neg (by omega), if_neg h24, if_pos (by omega), if_pos h32]
  · rw [if_neg h8, if_neg h8, if_neg (by omega), if_neg h16, if_neg (by omega), if_neg h24, if_neg (by omega), if_neg h32]

/-- Bit `i` of a packed colour (10_state.md R17). -/
theorem getLsbD_packColour (r g b w : Byte) (i : Nat) :
    (Machine.packColour r g b w).getLsbD i =
      if i < 8 then w.getLsbD i else if i < 16 then b.getLsbD (i - 8) else if i < 24 then g.getLsbD (i - 16)
      else r.getLsbD (i - 24) := by
  simp only [Machine.packColour, BitVec.getLsbD_cast, BitVec.getLsbD_append, Nat.sub_sub]
  by_cases h8 : i < 8
  · rw [if_pos h8, if_pos h8]
  by_cases h16 : i < 16
  · rw [if_neg h8, if_neg h8, if_pos (by omega), if_pos h16]
  by_cases h24 : i < 24
  · rw [if_neg h8, if_neg h8, if_neg (by omega), if_neg h16, if_pos (by omega), if_pos h24]
  · rw [if_neg h8, if_neg h8, if_neg (by omega), if_neg h16, if_neg (by omega), if_neg h24]

theorem tokenKind_packToken (kind : BitVec 2) (r g b w : Byte) : tokenKind (packToken kind r g b w) = kind := by
  apply BitVec.eq_of_getLsbD_eq
  intro i hi
  rw [tokenKind, BitVec.getLsbD_extractLsb', getLsbD_packToken, if_neg (by omega), if_neg (by omega),
    if_neg (by omega), if_neg (by omega), Nat.add_sub_cancel_left]
  simp [hi]

theorem tokenRed_packToken (kind : BitVec 2) (r g b w : Byte) : tokenRed (packToken kind r g b w) = r := by
  apply BitVec.eq_of_getLsbD_eq
  intro i hi
  rw [tokenRed, BitVec.getLsbD_extractLsb', getLsbD_packToken, if_neg (by omega), if_neg (by omega),
    if_neg (by omega), if_pos (by omega), Nat.add_sub_cancel_left]
  simp [hi]

theorem tokenGreen_packToken (kind : BitVec 2) (r g b w : Byte) : tokenGreen (packToken kind r g b w) = g := by
  apply BitVec.eq_of_getLsbD_eq
  intro i hi
  rw [tokenGreen, BitVec.getLsbD_extractLsb', getLsbD_packToken, if_neg (by omega), if_neg (by omega),
    if_pos (by omega), Nat.add_sub_cancel_left]
  simp [hi]

theorem tokenBlue_packToken (kind : BitVec 2) (r g b w : Byte) : tokenBlue (packToken kind r g b w) = b := by
  apply BitVec.eq_of_getLsbD_eq
  intro i hi
  rw [tokenBlue, BitVec.getLsbD_extractLsb', getLsbD_packToken, if_neg (by omega), if_pos (by omega),
    Nat.add_sub_cancel_left]
  simp [hi]

theorem tokenWhite_packToken (kind : BitVec 2) (r g b w : Byte) : tokenWhite (packToken kind r g b w) = w := by
  apply BitVec.eq_of_getLsbD_eq
  intro i hi
  rw [tokenWhite, BitVec.getLsbD_extractLsb', getLsbD_packToken, if_pos (by omega), Nat.zero_add]
  simp [hi]

end Sys2Proof
end

