-- ==== Sys2Proof/Laws/Memory.lean ====
section
/-! SUPPORT. The frame-buffer operations: reads after writes, and that every operation keeps the canonical form. -/

namespace Sys2Proof.Machine

theorem Memory.wfFrom_mono {m : Memory} {lo hi : Nat} (h : lo ≤ hi) (hm : m.wfFrom hi = true) :
    m.wfFrom lo = true := by
  cases m with
  | nil => rfl
  | cons x m =>
    obtain ⟨a, v⟩ := x
    simp only [Memory.wfFrom, Bool.and_eq_true, decide_eq_true_eq] at hm ⊢
    exact ⟨⟨by omega, hm.1.2⟩, hm.2⟩

theorem Memory.wf_nil : Memory.wf [] = true := rfl

/-- Below its first possible address a canonical memory reads as unlisted. -/
theorem Memory.read_below {m : Memory} {lo a : Nat} (hm : m.wfFrom lo = true) (h : a < lo) :
    m.read a = Memory.unlisted := by
  induction m generalizing lo with
  | nil => rfl
  | cons x m ih =>
    obtain ⟨b, v⟩ := x
    simp only [Memory.wfFrom, Bool.and_eq_true, decide_eq_true_eq] at hm
    have hne : b ≠ a := by omega
    simp only [Memory.read, if_neg hne]
    exact ih hm.2 (by omega)

theorem Memory.wfFrom_consCell {m : Memory} {lo a : Nat} (v : Byte) (h : lo ≤ a)
    (hm : m.wfFrom (a + 1) = true) : (Memory.cons a v m).wfFrom lo = true := by
  unfold Memory.cons
  split
  · exact Memory.wfFrom_mono (by omega) hm
  · rename_i hv
    simp [Memory.wfFrom, h, hv, hm]

theorem Memory.read_consCell {m : Memory} {a : Nat} (v : Byte) (b : Nat) (hm : m.wfFrom (a + 1) = true) :
    (Memory.cons a v m).read b = if a = b then v else m.read b := by
  unfold Memory.cons
  split
  · rename_i hv
    split
    · rename_i hab
      subst hab
      rw [hv, Memory.read_below hm (by omega)]
    · rfl
  · rfl

theorem Memory.wfFrom_write {m : Memory} {lo a : Nat} (v : Byte) (h : lo ≤ a) (hm : m.wfFrom lo = true) :
    (m.write a v).wfFrom lo = true := by
  induction m generalizing lo with
  | nil => exact Memory.wfFrom_consCell v h rfl
  | cons x m ih =>
    obtain ⟨b, x⟩ := x
    simp only [Memory.wfFrom, Bool.and_eq_true, decide_eq_true_eq] at hm
    unfold Memory.write
    split
    · rename_i hab
      refine Memory.wfFrom_consCell v h ?_
      simp only [Memory.wfFrom, Bool.and_eq_true, decide_eq_true_eq]
      exact ⟨⟨by omega, hm.1.2⟩, hm.2⟩
    · split
      · rename_i hab
        subst hab
        exact Memory.wfFrom_consCell v h hm.2
      · simp only [Memory.wfFrom, Bool.and_eq_true, decide_eq_true_eq]
        exact ⟨hm.1, ih (by omega) hm.2⟩

/-- Writing a byte keeps the canonical form. -/
theorem Memory.wf_write {m : Memory} (a : Nat) (v : Byte) (hm : m.wf = true) : (m.write a v).wf = true :=
  Memory.wfFrom_write v (Nat.zero_le a) hm

theorem Memory.read_writeFrom {m : Memory} {lo : Nat} (a : Nat) (v : Byte) (b : Nat) (hm : m.wfFrom lo = true) :
    (m.write a v).read b = if a = b then v else m.read b := by
  induction m generalizing lo with
  | nil => exact Memory.read_consCell v b rfl
  | cons x m ih =>
    obtain ⟨c, x⟩ := x
    simp only [Memory.wfFrom, Bool.and_eq_true, decide_eq_true_eq] at hm
    unfold Memory.write
    split
    · refine Memory.read_consCell v b ?_
      simp only [Memory.wfFrom, Bool.and_eq_true, decide_eq_true_eq]
      exact ⟨⟨by omega, hm.1.2⟩, hm.2⟩
    · split
      · rename_i hac
        subst hac
        rw [Memory.read_consCell v b hm.2]
        simp only [Memory.read]
        split <;> simp_all
      · rename_i hac
        simp only [Memory.read, ih hm.2]
        by_cases hcb : c = b
        · have : a ≠ b := by omega
          simp [hcb, this]
        · simp [hcb]

/-- A read after a write gives the byte written there, and any other byte as before. -/
theorem Memory.read_write {m : Memory} (a : Nat) (v : Byte) (b : Nat) (hm : m.wf = true) :
    (m.write a v).read b = if a = b then v else m.read b :=
  Memory.read_writeFrom a v b hm

/-- Writing bytes keeps the canonical form. -/
theorem Memory.wf_writeBytes {m : Memory} (a : Nat) (vs : List Byte) (hm : m.wf = true) :
    (m.writeBytes a vs).wf = true := by
  induction vs generalizing m a with
  | nil => exact hm
  | cons v vs ih => exact ih (a + 1) (Memory.wf_write a v hm)

/-- A byte outside the bytes written reads as before. -/
theorem Memory.read_writeBytes_outside {m : Memory} (a : Nat) (vs : List Byte) (b : Nat) (hm : m.wf = true)
    (h : b < a ∨ a + vs.length ≤ b) : (m.writeBytes a vs).read b = m.read b := by
  induction vs generalizing m a with
  | nil => rfl
  | cons v vs ih =>
    simp only [List.length_cons] at h
    rw [Memory.writeBytes, ih (a + 1) (Memory.wf_write a v hm) (by omega), Memory.read_write a v b hm,
      if_neg (by omega)]

/-- A byte written reads as the byte of the list that stands there. -/
theorem Memory.read_writeBytes_inside {m : Memory} (a : Nat) (vs : List Byte) (i : Nat) (hm : m.wf = true)
    (h : i < vs.length) : (m.writeBytes a vs).read (a + i) = vs[i] := by
  induction vs generalizing m a i with
  | nil => exact absurd h (by simp)
  | cons v vs ih =>
    cases i with
    | zero =>
      rw [Memory.writeBytes, Memory.read_writeBytes_outside (a + 1) vs (a + 0) (Memory.wf_write a v hm) (by omega),
        Memory.read_write a v (a + 0) hm]
      simp
    | succ i =>
      have h' : i < vs.length := by simpa using h
      rw [Memory.writeBytes, show a + (i + 1) = (a + 1) + i by omega, ih (a + 1) i (Memory.wf_write a v hm) h']
      simp

/-- A successful `MemWrite` keeps the canonical form. -/
theorem memWrite_wf {c : Config} {m m' : Memory} {a : Nat} {vs : List Byte} (h : memWrite c m a vs = some m')
    (hm : m.wf = true) : m'.wf = true := by
  unfold memWrite at h
  split at h
  · cases h
    exact Memory.wf_writeBytes a vs hm
  · cases h

/-- What a `MemWrite` answers: the range is inside `FB` and the bytes are written, or it answers nothing. -/
theorem memWrite_cases (c : Config) (m : Memory) (a : Nat) (vs : List Byte) :
    (a + vs.length ≤ c.n ∧ memWrite c m a vs = some (m.writeBytes a vs)) ∨
      (c.n < a + vs.length ∧ memWrite c m a vs = none) := by
  unfold memWrite
  split
  · exact .inl ⟨‹_›, rfl⟩
  · exact .inr ⟨by omega, rfl⟩

theorem Memory.length_readBytes (m : Memory) (a k : Nat) : (m.readBytes a k).length = k := by
  induction k generalizing a with
  | zero => rfl
  | succ k ih => simp [Memory.readBytes, ih]

/-- The `i`-th byte read from `a` up is the byte at `a + i`. -/
theorem Memory.getElem?_readBytes (m : Memory) (a k i : Nat) (h : i < k) :
    (m.readBytes a k)[i]? = some (m.read (a + i)) := by
  induction k generalizing a i with
  | zero => omega
  | succ k ih =>
    cases i with
    | zero => rfl
    | succ i =>
      rw [Memory.readBytes, List.getElem?_cons_succ, ih (a + 1) i (by omega)]
      congr 2
      omega

/-- The frame payload has `N` bytes. -/
theorem length_frame (c : Config) (m : Memory) : (frame c m).length = c.n := Memory.length_readBytes m 0 c.n

/-- Two canonical memories that read alike are equal. -/
theorem Memory.eq_of_read {m m' : Memory} {lo : Nat} (hm : m.wfFrom lo = true) (hm' : m'.wfFrom lo = true)
    (h : ∀ a, m.read a = m'.read a) : m = m' := by
  induction m generalizing m' lo with
  | nil =>
    cases m' with
    | nil => rfl
    | cons y m' =>
      obtain ⟨b, w⟩ := y
      simp only [Memory.wfFrom, Bool.and_eq_true, decide_eq_true_eq] at hm'
      have := h b
      simp only [Memory.read] at this
      exact absurd this.symm hm'.1.2
  | cons x m ih =>
    obtain ⟨a, v⟩ := x
    have hx := hm
    simp only [Memory.wfFrom, Bool.and_eq_true, decide_eq_true_eq] at hm
    cases m' with
    | nil =>
      have := h a
      simp only [Memory.read] at this
      exact absurd this hm.1.2
    | cons y m' =>
      obtain ⟨b, w⟩ := y
      have hy := hm'
      simp only [Memory.wfFrom, Bool.and_eq_true, decide_eq_true_eq] at hm'
      have hab : a = b := by
        rcases Nat.lt_trichotomy a b with hlt | heq | hgt
        · have ha := h a
          rw [Memory.read_below (lo := b) (m := (b, w) :: m') (by simp [Memory.wfFrom, hm'.1.2, hm'.2]) hlt] at ha
          simp only [Memory.read, if_true] at ha
          exact absurd ha hm.1.2
        · exact heq
        · have hb := h b
          rw [Memory.read_below (lo := a) (m := (a, v) :: m) (by simp [Memory.wfFrom, hm.1.2, hm.2]) hgt] at hb
          simp only [Memory.read, if_true] at hb
          exact absurd hb.symm hm'.1.2
      subst hab
      have hv : v = w := by simpa [Memory.read] using h a
      subst hv
      congr 1
      refine ih hm.2 hm'.2 fun c => ?_
      by_cases hc : a = c
      · subst hc
        rw [Memory.read_below hm.2 (by omega), Memory.read_below hm'.2 (by omega)]
      · have := h c
        simpa [Memory.read, hc] using this

end Sys2Proof.Machine
end

