-- ==== Sys2Proof/Laws/State.lean ====
section
/-! SUPPORT. One lemma per field per state update, so that no proof unfolds a record update. -/

namespace Sys2Proof.Machine

@[simp] theorem State.withGpe_cfg (s : State) (g : Gpe) : (s.withGpe g).cfg = s.cfg := rfl
@[simp] theorem State.withGpe_gpe (s : State) (g : Gpe) : (s.withGpe g).gpe = g := rfl
@[simp] theorem State.withGpe_spe (s : State) (g : Gpe) : (s.withGpe g).spe = s.spe := rfl
@[simp] theorem State.withGpe_agenda (s : State) (g : Gpe) : (s.withGpe g).agenda = s.agenda := rfl
@[simp] theorem State.withGpe_withGpe (s : State) (g h : Gpe) : (s.withGpe g).withGpe h = s.withGpe h := rfl

@[simp] theorem State.withSpe_cfg (s : State) (p : Spe) : (s.withSpe p).cfg = s.cfg := rfl
@[simp] theorem State.withSpe_gpe (s : State) (p : Spe) : (s.withSpe p).gpe = s.gpe := rfl
@[simp] theorem State.withSpe_spe (s : State) (p : Spe) : (s.withSpe p).spe = p := rfl
@[simp] theorem State.withSpe_agenda (s : State) (p : Spe) : (s.withSpe p).agenda = s.agenda := rfl
@[simp] theorem State.withSpe_withSpe (s : State) (p q : Spe) : (s.withSpe p).withSpe q = s.withSpe q := rfl

@[simp] theorem State.withAgenda_cfg (s : State) (ms : List Move) : (s.withAgenda ms).cfg = s.cfg := rfl
@[simp] theorem State.withAgenda_gpe (s : State) (ms : List Move) : (s.withAgenda ms).gpe = s.gpe := rfl
@[simp] theorem State.withAgenda_spe (s : State) (ms : List Move) : (s.withAgenda ms).spe = s.spe := rfl
@[simp] theorem State.withAgenda_agenda (s : State) (ms : List Move) : (s.withAgenda ms).agenda = ms := rfl

@[simp] theorem Gpe.taken_pinq (g : Gpe) : g.taken.pinq = g.pinq := rfl
@[simp] theorem Gpe.taken_col (g : Gpe) : g.taken.col = g.col := rfl
@[simp] theorem Gpe.taken_run (g : Gpe) : g.taken.run = g.run := rfl
@[simp] theorem Gpe.taken_pc (g : Gpe) : g.taken.pc = g.pc := rfl
@[simp] theorem Gpe.taken_fault (g : Gpe) : g.taken.fault = g.fault := rfl
@[simp] theorem Gpe.taken_wait (g : Gpe) : g.taken.wait = g.wait := rfl
@[simp] theorem Gpe.taken_tok (g : Gpe) : g.taken.tok = g.tok.tail := rfl
@[simp] theorem Gpe.taken_trace (g : Gpe) : g.taken.trace = g.trace := rfl
@[simp] theorem Gpe.taken_rsp (g : Gpe) : g.taken.rsp = g.rsp := rfl

@[simp] theorem Gpe.start_pinq (g : Gpe) (r : GRun) : (g.start r).pinq = g.pinq := rfl
@[simp] theorem Gpe.start_col (g : Gpe) (r : GRun) : (g.start r).col = g.col := rfl
@[simp] theorem Gpe.start_run (g : Gpe) (r : GRun) : (g.start r).run = r := rfl
@[simp] theorem Gpe.start_pc (g : Gpe) (r : GRun) : (g.start r).pc = 0 := rfl
@[simp] theorem Gpe.start_fault (g : Gpe) (r : GRun) : (g.start r).fault = g.fault := rfl
@[simp] theorem Gpe.start_wait (g : Gpe) (r : GRun) : (g.start r).wait = g.wait := rfl
@[simp] theorem Gpe.start_tok (g : Gpe) (r : GRun) : (g.start r).tok = g.tok := rfl
@[simp] theorem Gpe.start_trace (g : Gpe) (r : GRun) : (g.start r).trace = g.trace := rfl
@[simp] theorem Gpe.start_rsp (g : Gpe) (r : GRun) : (g.start r).rsp = g.rsp := rfl

@[simp] theorem Gpe.retire_run (g : Gpe) : g.retire.run = .idle := rfl
@[simp] theorem Gpe.retire_pc (g : Gpe) : g.retire.pc = 0 := rfl
@[simp] theorem Gpe.retire_pinq (g : Gpe) : g.retire.pinq = g.pinq := rfl
@[simp] theorem Gpe.retire_fault (g : Gpe) : g.retire.fault = g.fault := rfl
@[simp] theorem Gpe.retire_wait (g : Gpe) : g.retire.wait = g.wait := rfl
@[simp] theorem Gpe.retire_tok (g : Gpe) : g.retire.tok = g.tok := rfl
@[simp] theorem Gpe.retire_trace (g : Gpe) : g.retire.trace = g.trace := rfl

@[simp] theorem Spe.taken_fb (p : Spe) : p.taken.fb = p.fb := rfl
@[simp] theorem Spe.taken_init (p : Spe) : p.taken.init = p.init := rfl
@[simp] theorem Spe.taken_k (p : Spe) : p.taken.k = p.k := rfl
@[simp] theorem Spe.taken_run (p : Spe) : p.taken.run = p.run := rfl
@[simp] theorem Spe.taken_pc (p : Spe) : p.taken.pc = p.pc := rfl
@[simp] theorem Spe.taken_st (p : Spe) : p.taken.st = p.st := rfl
@[simp] theorem Spe.taken_code (p : Spe) : p.taken.code = p.code := rfl
@[simp] theorem Spe.taken_fault (p : Spe) : p.taken.fault = p.fault := rfl
@[simp] theorem Spe.taken_wait (p : Spe) : p.taken.wait = p.wait := rfl
@[simp] theorem Spe.taken_tok (p : Spe) : p.taken.tok = p.tok.tail := rfl
@[simp] theorem Spe.taken_trace (p : Spe) : p.taken.trace = p.trace := rfl
@[simp] theorem Spe.taken_rsp (p : Spe) : p.taken.rsp = p.rsp := rfl

@[simp] theorem Spe.start_fb (p : Spe) (r : SRun) : (p.start r).fb = p.fb := rfl
@[simp] theorem Spe.start_init (p : Spe) (r : SRun) : (p.start r).init = p.init := rfl
@[simp] theorem Spe.start_k (p : Spe) (r : SRun) : (p.start r).k = p.k := rfl
@[simp] theorem Spe.start_run (p : Spe) (r : SRun) : (p.start r).run = r := rfl
@[simp] theorem Spe.start_pc (p : Spe) (r : SRun) : (p.start r).pc = 0 := rfl
@[simp] theorem Spe.start_st (p : Spe) (r : SRun) : (p.start r).st = p.st := rfl
@[simp] theorem Spe.start_code (p : Spe) (r : SRun) : (p.start r).code = p.code := rfl
@[simp] theorem Spe.start_fault (p : Spe) (r : SRun) : (p.start r).fault = p.fault := rfl
@[simp] theorem Spe.start_wait (p : Spe) (r : SRun) : (p.start r).wait = p.wait := rfl
@[simp] theorem Spe.start_tok (p : Spe) (r : SRun) : (p.start r).tok = p.tok := rfl
@[simp] theorem Spe.start_trace (p : Spe) (r : SRun) : (p.start r).trace = p.trace := rfl
@[simp] theorem Spe.start_rsp (p : Spe) (r : SRun) : (p.start r).rsp = p.rsp := rfl

end Sys2Proof.Machine
end

