-- ==== Sys2Proof/Laws/Ops.lean ====
section
/-! SUPPORT. One lemma per shared operation that says what it can do; the proofs about steps cite these. -/

namespace Sys2Proof.Machine

/-! ### Taking a token -/

theorem Gpe.ready_iff (g : Gpe) : g.ready = true ↔ g.run = .idle ∧ g.fault = false := by
  simp [Gpe.ready]

theorem Spe.ready_iff (p : Spe) : p.ready = true ↔ p.run = .idle ∧ p.fault = false := by
  simp [Spe.ready]

/-- A ready GPE takes the token with its effect; another leaves it on the channel. -/
theorem gpeTake_cases (eff : State → Host.Outcome State Fault Refusal) (s : State) :
    (s.gpe.ready = true ∧ gpeTake eff s = eff (s.withGpe s.gpe.taken)) ∨
      (s.gpe.ready = false ∧ gpeTake eff s = .next s) := by
  unfold gpeTake
  cases h : s.gpe.ready <;> simp

/-- A ready SPE takes the token with its effect; another leaves it on the channel. -/
theorem speTake_cases (eff : State → Host.Outcome State Fault Refusal) (s : State) :
    (s.spe.ready = true ∧ speTake eff s = eff (s.withSpe s.spe.taken)) ∨
      (s.spe.ready = false ∧ speTake eff s = .next s) := by
  unfold speTake
  cases h : s.spe.ready <;> simp

/-- An illegal token on the GPE changes `G_FAULT`, `G_RUN` and `G_PC` only. -/
theorem raiseIllegal_gpe (s : State) :
    raiseIllegal .gpe s = s.withGpe { s.gpe with fault := true, run := .ill, pc := 0 } := rfl

/-- An illegal token on the SPE changes `S_FAULT`, `S_RUN` and `S_PC` only. -/
theorem raiseIllegal_spe (s : State) :
    raiseIllegal .spe s = s.withSpe { s.spe with fault := true, run := .ill, pc := 0 } := rfl

/-! ### Writing a slice -/

theorem length_expand (c : Config) (d : Byte) : (expand c d).length = 4 := rfl

theorem getElem?_expand (c : Config) (d : Byte) {p : Nat} (h : p < 4) :
    (expand c d)[p]? = some (pattern c (pair d p)) := by
  match p, h with
  | 0, _ => rfl
  | 1, _ => rfl
  | 2, _ => rfl
  | 3, _ => rfl

/-- Channels that fit the buffer are written, the bytes outside them are kept, and the form stays canonical. -/
theorem writeChannels_spec (c : Config) (k : Nat) (ds : List Byte) (ch : Nat) (m : Memory) (hm : m.wf = true)
    (h : addr c k (ch + ds.length) 0 ≤ c.n) :
    ∃ m', writeChannels c k ch ds m = some m' ∧ m'.wf = true ∧
      (∀ b, b < addr c k ch 0 ∨ addr c k (ch + ds.length) 0 ≤ b → m'.read b = m.read b) ∧
      (∀ i d p, ds[i]? = some d → p < 4 → m'.read (addr c k (ch + i) p) = pattern c (pair d p)) := by
  induction ds generalizing ch m with
  | nil => exact ⟨m, rfl, hm, fun _ _ => rfl, fun i d p h => by simp at h⟩
  | cons d ds ih =>
    simp only [addr, List.length_cons] at h ih ⊢
    have hfit : k * c.perLed + ch * 4 + 0 + (expand c d).length ≤ c.n := by
      rw [length_expand]; omega
    have hw : memWrite c m (addr c k ch 0) (expand c d) = some (m.writeBytes (addr c k ch 0) (expand c d)) :=
      if_pos hfit
    obtain ⟨m', he, hwf, hout, hin⟩ := ih (ch + 1) (m.writeBytes (addr c k ch 0) (expand c d))
      (Memory.wf_writeBytes _ _ hm) (by omega)
    refine ⟨m', by rw [writeChannels, hw]; exact he, hwf, fun b hb => ?_, fun i e p hi hp => ?_⟩
    · rw [hout b (by omega), Memory.read_writeBytes_outside _ _ _ hm (by rw [length_expand]; simp only [addr]; omega)]
    · cases i with
      | zero =>
        have hde : d = e := by simpa using hi
        subst hde
        rw [hout _ (by omega), show k * c.perLed + (ch + 0) * 4 + p = addr c k ch 0 + p by simp [addr],
          Memory.read_writeBytes_inside _ _ p hm (by rw [length_expand]; omega)]
        exact Option.some_inj.mp ((List.getElem?_eq_getElem _).symm.trans (getElem?_expand c d hp))
      | succ i =>
        rw [← hin i e p (by simpa using hi) hp]
        congr 1
        omega

/-- Whatever the range, a written slice is canonical. -/
theorem writeChannels_wf {c : Config} {k ch : Nat} {ds : List Byte} {m m' : Memory}
    (h : writeChannels c k ch ds m = some m') (hm : m.wf = true) : m'.wf = true := by
  induction ds generalizing ch m with
  | nil => cases h; exact hm
  | cons d ds ih =>
    rw [writeChannels] at h
    rcases hw : memWrite c m (addr c k ch 0) (expand c d) with _ | m1
    · rw [hw] at h; cases h
    · rw [hw] at h
      exact ih h (memWrite_wf hw hm)

/-! ### Configuration -/

/-- What `CfgOK` says of the frame buffer's geometry. -/
theorem Config.geometry_of_ok {c : Config} (h : c.ok = true) :
    (c.ch = 3 ∨ c.ch = 4) ∧ 1 ≤ c.leds ∧ c.perLed = 4 * c.ch ∧ c.n = c.perLed * c.leds := by
  simp only [Config.ok, Bool.and_eq_true] at h
  have := h.1.1.1.2
  simp only [Config.geometryOk, Bool.and_eq_true, Bool.or_eq_true, decide_eq_true_eq] at this
  exact ⟨this.1.1.1, this.1.1.2, this.1.2, this.2⟩

theorem length_channels {c : Config} (r g b w : Byte) (h : c.ch = 3 ∨ c.ch = 4) :
    (channels c r g b w).length = c.ch := by
  rcases h with h | h <;> simp [channels, h]

/-- A slot below `L` lies inside the frame buffer (R40). -/
theorem addr_slot_le {c : Config} (h : c.ok = true) {k : Nat} (hk : k < c.leds) : addr c k c.ch 0 ≤ c.n := by
  obtain ⟨-, -, hp, hn⟩ := Config.geometry_of_ok h
  have : k * c.perLed + c.perLed ≤ c.perLed * c.leds := by
    calc k * c.perLed + c.perLed = c.perLed * (k + 1) := by ring
      _ ≤ c.perLed * c.leds := Nat.mul_le_mul_left _ hk
  simp only [addr]
  omega

/-! ### Scripts -/

theorem length_bitScript_le (c : Config) (b : Bool) : (bitScript c b).length ≤ 5 := by
  cases b <;> cases h : c.tLow1 <;> simp [bitScript, h]

theorem length_byteScript_le (c : Config) (d : Byte) : (byteScript c d).length ≤ 40 := by
  simp only [byteScript, List.flatMap_cons, List.flatMap_nil, List.length_append, List.length_nil]
  have := fun i => length_bitScript_le c (d.getLsbD i)
  have h0 := this 0
  have h1 := this 1
  have h2 := this 2
  have h3 := this 3
  have h4 := this 4
  have h5 := this 5
  have h6 := this 6
  have h7 := this 7
  omega

/-- `G_PC` cannot wrap: no script is longer than 160 elements (R19). -/
theorem Gpe.length_script_le (c : Config) (g : Gpe) : (g.script c).length ≤ 160 := by
  cases h : g.run with
  | idle => simp [Gpe.script, h]
  | color =>
    simp only [Gpe.script, h, colorScript, List.flatMap_cons, List.flatMap_nil, List.length_append,
      List.length_nil]
    have := fun i => length_byteScript_le c (g.col.extractLsb' i 8)
    have h0 := this 0
    have h1 := this 8
    have h2 := this 16
    have h3 := this 24
    omega
  | endTok => simp [Gpe.script, h, endScript]
  | ill => simp [Gpe.script, h, illegalScript]

/-- Moving past an element of the script does not wrap. -/
theorem Gpe.toNat_pc_succ {c : Config} {g : Gpe} (h : g.pc.toNat < (g.script c).length) :
    (g.pc + 1).toNat = g.pc.toNat + 1 := by
  have := g.length_script_le c
  rw [BitVec.toNat_add]
  simp
  omega

/-! ### The engines' steps -/

/-- The GPE's issue or retire step: an element is issued, or the token retires, or nothing is enabled. -/
theorem Gpe.advance_cases (c : Config) (g : Gpe) :
    (∃ e, g.element c = some e ∧ g.advance c = { g with trace := g.trace ++ [e], wait := true }) ∨
      (g.pc.toNat = (g.script c).length ∧ g.advance c = g.retire) ∨
      ((g.script c).length < g.pc.toNat ∧ g.advance c = g) := by
  unfold Gpe.advance
  cases h : g.element c with
  | some e => exact .inl ⟨e, rfl, rfl⟩
  | none =>
    have hle : (g.script c).length ≤ g.pc.toNat := by simpa [Gpe.element] using h
    rcases Nat.eq_or_lt_of_le hle with heq | hlt
    · exact .inr (.inl ⟨heq.symm, if_pos heq.symm⟩)
    · exact .inr (.inr ⟨hlt, if_neg (by omega)⟩)

/-- `PinSet` is answered, or the event answers nothing outstanding. -/
theorem Gpe.onPin_cases (c : Config) (err : Bool) (g : Gpe) :
    (∃ v, g.wait = true ∧ g.element c = some (.pinSet v) ∧ g.onPin c err = { g.answered with pinq := v }) ∨
      g.onPin c err = g := by
  unfold Gpe.onPin
  split
  · rename_i v hw he
    exact .inl ⟨v, hw, he, rfl⟩
  · exact .inr rfl

/-- `Delay` is answered, or the event answers nothing outstanding. -/
theorem Gpe.onDelay_cases (c : Config) (g : Gpe) :
    (∃ n, g.wait = true ∧ g.element c = some (.delay n) ∧ g.onDelay c = g.answered) ∨ g.onDelay c = g := by
  unfold Gpe.onDelay
  split
  · rename_i n hw he
    exact .inl ⟨n, hw, he, rfl⟩
  · exact .inr rfl

/-- The response is taken, or the event takes nothing outstanding. -/
theorem Gpe.onTaken_cases (c : Config) (g : Gpe) :
    (∃ st code, g.wait = true ∧ g.element c = some (.rsp st code) ∧
        g.onTaken c = { g.answered with rsp := g.rsp ++ [responseWord c st code] }) ∨ g.onTaken c = g := by
  unfold Gpe.onTaken
  split
  · rename_i st code hw he
    exact .inl ⟨st, code, hw, he, rfl⟩
  · exact .inr rfl

/-- The SPE's issue step: the element at `S_PC` is issued, or the SPE is idle. -/
theorem Spe.advance_cases (c : Config) (p : Spe) :
    (∃ e, p.element c = some e ∧ p.advance c = { p with trace := p.trace ++ [e], wait := true }) ∨
      (p.run = .idle ∧ p.advance c = p) := by
  unfold Spe.advance
  cases h : p.element c with
  | some e => exact .inl ⟨e, rfl, rfl⟩
  | none =>
    refine .inr ⟨?_, rfl⟩
    cases hr : p.run with
    | idle => rfl
    | endTok =>
      simp only [Spe.element, hr] at h
      split at h <;> [cases h; split at h <;> [cases h; split at h <;> cases h]]
    | ill => simp [Spe.element, hr] at h

/-- What the element says of `S_RUN` and `S_PC` when it is a serial write. -/
theorem Spe.element_serWrite {c : Config} {p : Spe} {bs : List Byte} (h : p.element c = some (.serWrite bs)) :
    p.run = .endTok ∧ ((p.pc = 0 ∧ bs = frame c p.fb) ∨ (p.pc = 1 ∧ bs = zeroBuffer c)) := by
  cases hr : p.run with
  | idle => simp [Spe.element, hr] at h
  | ill => simp [Spe.element, hr] at h
  | endTok =>
    simp only [Spe.element, hr] at h
    split at h
    · rename_i hp
      cases h
      exact ⟨rfl, .inl ⟨hp, rfl⟩⟩
    · split at h
      · rename_i hp
        cases h
        exact ⟨rfl, .inr ⟨hp, rfl⟩⟩
      · split at h <;> cases h

/-- What the element says of `S_RUN` and `S_PC` when it is the flush. -/
theorem Spe.element_serFlush {c : Config} {p : Spe} (h : p.element c = some .serFlush) :
    p.run = .endTok ∧ p.pc = 2 := by
  cases hr : p.run with
  | idle => simp [Spe.element, hr] at h
  | ill => simp [Spe.element, hr] at h
  | endTok =>
    simp only [Spe.element, hr] at h
    split at h
    · cases h
    · split at h
      · cases h
      · split at h
        · rename_i hp
          exact ⟨rfl, hp⟩
        · cases h

/-- What the element says of `S_RUN`, `S_PC` and the status when it is a response. -/
theorem Spe.element_rsp {c : Config} {p : Spe} {st : Status} {code : Nat} (h : p.element c = some (.rsp st code)) :
    (p.run = .endTok ∧ p.pc = 3 ∧ st = p.st ∧ code = p.code) ∨ (p.run = .ill ∧ st = .illegal ∧ code = 0) := by
  cases hr : p.run with
  | idle => simp [Spe.element, hr] at h
  | ill =>
    simp only [Spe.element, hr] at h
    cases h
    exact .inr ⟨rfl, rfl, rfl⟩
  | endTok =>
    simp only [Spe.element, hr] at h
    split at h
    · cases h
    · split at h
      · cases h
      · split at h
        · cases h
        · rename_i h0 h1 h2
          cases h
          refine .inl ⟨rfl, ?_, rfl, rfl⟩
          generalize p.pc = v at h0 h1 h2 ⊢
          revert h0 h1 h2
          revert v
          decide

/-- A serial answer: a success moves on, a failure raises, and any other changes nothing. -/
theorem Spe.onSerial_cases (c : Config) (a : SerAnswer) (p : Spe) :
    (p.wait = true ∧ p.run = .endTok ∧ p.pc ≠ 3 ∧ a = .ok ∧ p.onSerial c a = p.answered) ∨
      (∃ code, p.wait = true ∧ p.run = .endTok ∧ (p.pc = 0 ∨ p.pc = 1) ∧ a = .err code ∧
        p.onSerial c a = p.raiseSerial c .writeErr code) ∨
      (∃ code, p.wait = true ∧ p.run = .endTok ∧ p.pc = 2 ∧ a = .err code ∧
        p.onSerial c a = p.raiseSerial c .flushErr code) ∨
      p.onSerial c a = p := by
  unfold Spe.onSerial
  split
  · rename_i bs hw he
    obtain ⟨hr, hp⟩ := Spe.element_serWrite he
    have hp' : p.pc = 0 ∨ p.pc = 1 := hp.imp And.left And.left
    cases a with
    | ok => exact .inl ⟨hw, hr, by rcases hp' with h | h <;> simp [h], rfl, rfl⟩
    | err code => exact .inr (.inl ⟨code, hw, hr, hp', rfl, rfl⟩)
  · rename_i hw he
    obtain ⟨hr, hp⟩ := Spe.element_serFlush he
    cases a with
    | ok => exact .inl ⟨hw, hr, by simp [hp], rfl, rfl⟩
    | err code => exact .inr (.inr (.inl ⟨code, hw, hr, hp, rfl, rfl⟩))
  · exact .inr (.inr (.inr rfl))

/-- The response is taken, or the event takes nothing outstanding. -/
theorem Spe.onTaken_cases (c : Config) (p : Spe) :
    (p.wait = true ∧ p.run = .endTok ∧ p.pc = 3 ∧
        p.onTaken c = { p with run := .idle, pc := 0, k := 0, wait := false,
                               rsp := p.rsp ++ [responseWord c p.st p.code] }) ∨
      (p.wait = true ∧ p.run = .ill ∧
        p.onTaken c = { p with run := .idle, pc := 0, wait := false, rsp := p.rsp ++ [responseWord c .illegal 0] }) ∨
      p.onTaken c = p := by
  unfold Spe.onTaken
  split
  · rename_i st code hw he
    rcases Spe.element_rsp he with ⟨hr, hp, rfl, rfl⟩ | ⟨hr, rfl, rfl⟩
    · exact .inl ⟨hw, hr, hp, by simp [Spe.finish, hr, Spe.retire, Spe.start]⟩
    · exact .inr (.inl ⟨hw, hr, by simp [Spe.finish, hr, Spe.retire, Spe.start]⟩)
  · exact .inr (.inr rfl)

/-- While a transaction of the GPE is outstanding it has no enabled step (R62). -/
theorem gpeMove_of_wait {s : State} (h : s.gpe.wait = true) : gpeMove s = .next s := by
  simp [gpeMove, h]

/-- While a transaction of the SPE is outstanding it has no enabled step (R77). -/
theorem speMove_of_wait {s : State} (h : s.spe.wait = true) : speMove s = .next s := by
  simp [speMove, h]

/-- The GPE's own step: nothing is enabled, or a token is offered, or the script advances. -/
theorem gpeMove_cases (s : State) :
    gpeMove s = .next s ∨
      (∃ t ts, s.gpe.wait = false ∧ s.gpe.run = .idle ∧ s.gpe.tok = t :: ts ∧ gpeMove s = exec (decodeGpe t) s) ∨
      (s.gpe.wait = false ∧ s.gpe.run ≠ .idle ∧ gpeMove s = .next (s.withGpe (s.gpe.advance s.cfg))) := by
  unfold gpeMove
  cases hw : s.gpe.wait with
  | true => simp
  | false =>
    by_cases hr : s.gpe.run = .idle
    · cases ht : s.gpe.tok with
      | nil => simp [hr]
      | cons t ts => exact .inr (.inl ⟨t, ts, rfl, hr, rfl, by simp [hr, decode]⟩)
    · exact .inr (.inr ⟨rfl, hr, by simp [hr]⟩)

/-- The SPE's own step: nothing is enabled, or a token is offered, or the script advances. -/
theorem speMove_cases (s : State) :
    speMove s = .next s ∨
      (∃ t ts, s.spe.wait = false ∧ s.spe.run = .idle ∧ s.spe.tok = t :: ts ∧ speMove s = exec (decodeSpe t) s) ∨
      (s.spe.wait = false ∧ s.spe.run ≠ .idle ∧ speMove s = .next (s.withSpe (s.spe.advance s.cfg))) := by
  unfold speMove
  cases hw : s.spe.wait with
  | true => simp
  | false =>
    by_cases hr : s.spe.run = .idle
    · cases ht : s.spe.tok with
      | nil => simp [hr]
      | cons t ts => exact .inr (.inl ⟨t, ts, rfl, hr, rfl, by simp [hr, decode]⟩)
    · exact .inr (.inr ⟨rfl, hr, by simp [hr]⟩)

/-- A step that answers a next state: the configuration is well formed, and the agenda is empty or its first event
happened. -/
theorem step_cases {s t : State} (h : step s = .next t) :
    s.cfg.ok = true ∧
      ((s.agenda = [] ∧ t = s) ∨ ∃ m ms, s.agenda = m :: ms ∧ perform m (s.withAgenda ms) = .next t) := by
  unfold step at h
  split at h
  · rename_i hok
    refine ⟨hok, ?_⟩
    unfold nextEvent at h
    split at h
    · rename_i ha
      cases h
      exact .inl ⟨ha, rfl⟩
    · rename_i m ms ha
      exact .inr ⟨m, ms, ha, h⟩
  · cases h

end Sys2Proof.Machine
end

