-- ==== Sys2Proof/Laws/PerInstr.lean ====
section
/-! SUPPORT. Statements for all instructions, one lemma per constructor. -/

namespace Sys2Proof.Laws.TableRow

/-- The kind number the opcode table gives an instruction's row (30_encoding.md R52). -/
def kindOf : Instr → BitVec 2
  | .gpeColor _ _ _ _ => 0b01#2
  | .gpeEnd => 0b10#2
  | .gpeRsvd00 => 0b00#2
  | .gpeRsvd11 => 0b11#2
  | .speInit => 0b00#2
  | .speColor _ _ _ _ => 0b01#2
  | .speEnd => 0b10#2
  | .speRsvd11 => 0b11#2

/-- The encoder writes the row's kind in bits 33:32. -/
def Statement (i : Instr) : Prop := tokenKind (encode i) = kindOf i

theorem gpeColor (r g b w : Byte) : Statement (.gpeColor r g b w) := tokenKind_packToken _ r g b w
theorem gpeEnd : Statement .gpeEnd := tokenKind_packToken _ 0 0 0 0
theorem gpeRsvd00 : Statement .gpeRsvd00 := tokenKind_packToken _ 0 0 0 0
theorem gpeRsvd11 : Statement .gpeRsvd11 := tokenKind_packToken _ 0 0 0 0
theorem speInit : Statement .speInit := tokenKind_packToken _ 0 0 0 0
theorem speColor (r g b w : Byte) : Statement (.speColor r g b w) := tokenKind_packToken _ r g b w
theorem speEnd : Statement .speEnd := tokenKind_packToken _ 0 0 0 0
theorem speRsvd11 : Statement .speRsvd11 := tokenKind_packToken _ 0 0 0 0

end Sys2Proof.Laws.TableRow
end

