-- ==== Sys2Proof/Laws/Run.lean ====
section
/-! SUPPORT. Runs of the machine, who is waited for, and the trace a channel determines. -/

namespace Sys2Proof.Machine

theorem core_run_next (M : Host.Core) (k : Nat) {s t : M.State} (h : M.step s = .next t) :
    M.run (k + 1) s = M.run k t := by
  rw [Host.Core.run, h]

theorem core_run_fault (M : Host.Core) (k : Nat) {s : M.State} {r : M.Fault} (h : M.step s = .fault r) :
    M.run (k + 1) s = .fault r := by
  rw [Host.Core.run, h]

theorem core_run_refused (M : Host.Core) (k : Nat) {s : M.State} {r : M.Refusal} (h : M.step s = .refused r) :
    M.run (k + 1) s = .refused r := by
  rw [Host.Core.run, h]

/-! ### Who is waited for -/

@[simp] theorem Gpe.asksCollaborator_of_not_wait {g : Gpe} (c : Config) (h : g.wait = false) :
    g.asksCollaborator c = false := by
  simp [Gpe.asksCollaborator, h]

@[simp] theorem Gpe.offersResponse_of_not_wait {g : Gpe} (c : Config) (h : g.wait = false) :
    g.offersResponse c = false := by
  simp [Gpe.offersResponse, h]

@[simp] theorem Spe.asksCollaborator_of_not_wait {p : Spe} (c : Config) (h : p.wait = false) :
    p.asksCollaborator c = false := by
  simp [Spe.asksCollaborator, h]

@[simp] theorem Spe.offersResponse_of_not_wait {p : Spe} (c : Config) (h : p.wait = false) :
    p.offersResponse c = false := by
  simp [Spe.offersResponse, h]

/-! ### The trace a channel determines -/

/-- A word at the end of a channel adds its script, unless a word before it is illegal. -/
theorem tokensTrace_append_word (c : Config) (ts : List Token) (w : Token) :
    tokensTrace c (ts ++ [w]) =
      tokensTrace c ts ++ (if ∀ x ∈ ts, tokenLegal x = true then tokenScript c w else []) := by
  induction ts with
  | nil => cases h : tokenLegal w <;> simp [tokensTrace, h]
  | cons t ts ih => cases h : tokenLegal t <;> simp [tokensTrace, h, ih]

/-! ### Runs -/

/-- `runSteps` is the host's run of this machine. -/
theorem runSteps_eq_core_run (k : Nat) (s : State) : runSteps k s = Host.Core.run Sys2Proof.core k s := by
  induction k generalizing s with
  | zero => rfl
  | succ k ih =>
    rw [runSteps]
    cases h : step s with
    | next t => exact (ih t).trans (core_run_next Sys2Proof.core k h).symm
    | fault r => exact (core_run_fault Sys2Proof.core k h).symm
    | refused r => exact (core_run_refused Sys2Proof.core k h).symm

/-- A run begins with a step. -/
theorem runSteps_succ {s t : State} (k : Nat) (h : step s = .next t) : runSteps (k + 1) s = runSteps k t := by
  rw [runSteps, h]

/-- A run is a run followed by a run. -/
theorem runSteps_add {s t : State} (j k : Nat) (h : runSteps j s = .next t) : runSteps (j + k) s = runSteps k t := by
  induction j generalizing s with
  | zero => cases h; rw [Nat.zero_add]
  | succ j ih =>
    rw [Nat.succ_add_eq_add_succ, Nat.add_succ]
    rw [runSteps] at h ⊢
    cases hs : step s with
    | next u => rw [hs] at h; exact ih h
    | fault r => rw [hs] at h; cases h
    | refused r => rw [hs] at h; cases h

end Sys2Proof.Machine
end

