-- ==== Sys2Proof/Laws/Tokens.lean ====
section
/-! SUPPORT. Everything the take step of a token can do, once per engine; the proofs about steps cite these. -/

namespace Sys2Proof.Machine

/-- A word decodes to a token of the engine that receives it. -/
theorem engineOf_decodeGpe (t : Token) : engineOf (decodeGpe t) = .gpe := by
  unfold decodeGpe
  split_ifs <;> rfl

/-- A word decodes to a token of the engine that receives it. -/
theorem engineOf_decodeSpe (t : Token) : engineOf (decodeSpe t) = .spe := by
  unfold decodeSpe
  split_ifs <;> rfl

/-- A token of the GPE: it waits, or its colour is packed, or the reset interval starts, or the GPE faults. -/
theorem execGpe_cases {i : Instr} (hi : engineOf i = .gpe) {s t : State} (h : exec i s = .next t) :
    (s.gpe.ready = false ∧ t = s) ∨
      (s.gpe.ready = true ∧
        ((∃ r g b w, i = .gpeColor r g b w ∧
            t = s.withGpe { s.gpe with tok := s.gpe.tok.tail, col := packColour r g b w, run := .color, pc := 0 }) ∨
          (i = .gpeEnd ∧ t = s.withGpe { s.gpe with tok := s.gpe.tok.tail, run := .endTok, pc := 0 }) ∨
          ((i = .gpeRsvd00 ∨ i = .gpeRsvd11) ∧
            t = s.withGpe { s.gpe with tok := s.gpe.tok.tail, fault := true, run := .ill, pc := 0 }))) := by
  cases hr : s.gpe.ready
  · refine .inl ⟨rfl, ?_⟩
    cases i <;> cases hi <;>
      simp_all [exec, execGpeColor, execGpeEnd, execGpeRsvd00, execGpeRsvd11, gpeTake]
  · refine .inr ⟨rfl, ?_⟩
    cases i <;> cases hi <;>
      simp only [exec, execGpeColor, execGpeEnd, execGpeRsvd00, execGpeRsvd11, gpeTake, hr, if_true] at h <;>
      cases h
    · exact .inl ⟨_, _, _, _, rfl, rfl⟩
    · exact .inr (.inl ⟨rfl, rfl⟩)
    · exact .inr (.inr ⟨.inl rfl, rfl⟩)
    · exact .inr (.inr ⟨.inr rfl, rfl⟩)

/-- A token of the SPE under a geometry that holds the frame: it waits, or the SPE faults, or the buffer is zeroed, or slot
`S_K` is written, or the colour is dropped, or the transfers start. -/
theorem execSpe_cases {i : Instr} (hi : engineOf i = .spe) {s t : State} (h : exec i s = .next t) :
    (s.spe.ready = false ∧ t = s) ∨
      (s.spe.ready = true ∧
        ((t = s.withSpe { s.spe with tok := s.spe.tok.tail, fault := true, run := .ill, pc := 0 } ∧
            (i = .speRsvd11 ∨ (i = .speInit ∧ s.spe.k ≠ 0) ∨ (i ≠ .speInit ∧ s.spe.init = false))) ∨
          (i = .speInit ∧ s.spe.k = 0 ∧
            t = s.withSpe { s.spe with
              tok := s.spe.tok.tail, fb := s.spe.fb.writeBytes 0 (List.replicate s.cfg.n 0), init := true, k := 0 }) ∨
          (∃ r g b w m, i = .speColor r g b w ∧ s.spe.init = true ∧ s.spe.k < s.cfg.leds ∧
            writeChannels s.cfg s.spe.k 0 (channels s.cfg r g b w) s.spe.fb = some m ∧
            t = s.withSpe { s.spe with tok := s.spe.tok.tail, fb := m, k := s.spe.k + 1 }) ∨
          (∃ r g b w, i = .speColor r g b w ∧ s.spe.init = true ∧ s.cfg.leds ≤ s.spe.k ∧
            t = s.withSpe { s.spe with tok := s.spe.tok.tail }) ∨
          (i = .speEnd ∧ s.spe.init = true ∧
            t = s.withSpe { s.spe with tok := s.spe.tok.tail, st := .ok, code := 0, run := .endTok, pc := 0 }))) := by
  cases hr : s.spe.ready
  · refine .inl ⟨rfl, ?_⟩
    cases i <;> cases hi <;>
      simp_all [exec, execSpeInit, execSpeColor, execSpeEnd, execSpeRsvd11, speTake]
  · refine .inr ⟨rfl, ?_⟩
    cases i <;> cases hi <;>
      simp only [exec, execSpeInit, execSpeColor, execSpeEnd, execSpeRsvd11, speTake, hr, if_true] at h
    · by_cases hk : s.spe.k = 0
      · rw [if_pos (by exact hk)] at h
        rcases memWrite_cases s.cfg s.spe.fb 0 (List.replicate s.cfg.n 0) with ⟨-, hm⟩ | ⟨hn, -⟩
        · have hm' : memWrite (s.withSpe s.spe.taken).cfg (s.withSpe s.spe.taken).spe.fb 0
              (List.replicate (s.withSpe s.spe.taken).cfg.n 0) = some (s.spe.fb.writeBytes 0 (List.replicate s.cfg.n 0)) := hm
          rw [hm'] at h
          cases h
          exact .inr (.inl ⟨rfl, hk, rfl⟩)
        · simp at hn
      · rw [if_neg (by exact hk)] at h
        cases h
        exact .inl ⟨rfl, .inr (.inl ⟨rfl, hk⟩)⟩
    · by_cases hi : s.spe.init = true
      · rw [if_pos (by exact hi)] at h
        by_cases hk : s.spe.k < s.cfg.leds
        · rw [if_pos (by exact hk)] at h
          split at h
          · rename_i m hm
            cases h
            exact .inr (.inr (.inl ⟨_, _, _, _, m, rfl, hi, hk, hm, rfl⟩))
          · cases h
        · rw [if_neg (by exact hk)] at h
          cases h
          exact .inr (.inr (.inr (.inl ⟨_, _, _, _, rfl, hi, Nat.le_of_not_lt hk, rfl⟩)))
      · rw [if_neg (by exact hi)] at h
        cases h
        exact .inl ⟨rfl, .inr (.inr ⟨by simp, by simpa using hi⟩)⟩
    · by_cases hi : s.spe.init = true
      · rw [if_pos (by exact hi)] at h
        cases h
        exact .inr (.inr (.inr (.inr ⟨rfl, hi, rfl⟩)))
      · rw [if_neg (by exact hi)] at h
        cases h
        exact .inl ⟨rfl, .inr (.inr ⟨by simp, by simpa using hi⟩)⟩
    · cases h
      exact .inl ⟨rfl, .inl rfl⟩

end Sys2Proof.Machine
end

