-- ==== Sys2Proof/Tests/Slice0.lean ====
section
/-! SUPPORT. Tests: the vectors of 95_test_vectors.md as single steps, an ill-formed term for each well-formedness check, and
for every statement with hypotheses a witness that meets them. Expected results come from the vectors named. -/

namespace Sys2Proof.Tests

open Sys2Proof.Machine

/-! ### Small states -/

/-- `CFG_REF` with one LED, and with two. -/
def c1 : Config := Config.cfgRef 1
def c2 : Config := Config.cfgRef 2

/-- S6's configuration: `CH = 3`, `L = 2`. -/
def c3 : Config := { Config.cfgRef 2 with ch := 3, perLed := 12, n := 24 }

/-- After reset, with some events to come. -/
def at0 (c : Config) (ms : List Move) : State := { State.resetWith c with agenda := ms }

/-- A GPE that is executing a script. -/
def gpeIn (run : GRun) (col : BitVec 32) (pc : BitVec 8) (wait : Bool) : Gpe :=
  { Gpe.atReset col with run := run, pc := pc, wait := wait }

/-- A frame buffer of one byte throughout. -/
def filled (n : Nat) (v : Byte) : Memory := Memory.writeBytes [] 0 (List.replicate n v)

/-- An SPE after `INIT`, with a frame buffer and a slot. -/
def spe0 (m : Memory) (k : Nat) : Spe := { Spe.atReset m with init := true, k := k }

/-- An SPE executing `END`. -/
def speIn (m : Memory) (pc : BitVec 2) (wait : Bool) : Spe := { spe0 m 0 with run := .endTok, pc := pc, wait := wait }

/-- The state with another GPE, SPE, and events to come. -/
def st (c : Config) (g : Gpe) (p : Spe) (ms : List Move) : State := { cfg := c, gpe := g, spe := p, agenda := ms }

/-- A property of the next state; false of a stop. -/
def nextIs (o : Host.Outcome State Fault Refusal) (q : State → Bool) : Bool :=
  match o with
  | .next t => q t
  | .fault _ => false
  | .refused _ => false

/-! ### WellFormed: vectors C1 to C15, an ill-formed term for each check -/

/-- C1 -/
theorem test_cfg_ref_ok : c1.ok = true := by decide

/-- C3, C5, C9, C12 -/
theorem test_cfg_well_formed :
    { c1 with g := 143, sclkHz := 3800000 }.ok = true ∧ { c1 with g := 135 }.ok = true ∧
      { c1 with tReset := 80 }.ok = true ∧ c3.ok = true := by decide

/-- C7 -/
theorem test_cfg_timing_order_refused :
    { c1 with tShort := 3 }.timingOrderOk = false ∧ { c1 with tShort := 3 }.ok = false := by decide

/-- C8 -/
theorem test_cfg_reset_interval_refused :
    { c1 with tReset := 79 }.resetIntervalOk = false ∧ { c1 with tReset := 79 }.ok = false := by decide

/-- C10, and the optional `T_LOW1` -/
theorem test_cfg_delay_width_refused :
    { c1 with tReset := 65536 }.delayWidthOk = false ∧ { c1 with tReset := 65536 }.ok = false ∧
      { c1 with tLow1 := some 65536 }.ok = false ∧ { c1 with tLow1 := some 65535 }.ok = true := by decide

/-- C11, C13, C14 -/
theorem test_cfg_geometry_refused :
    { c1 with n := 17 }.geometryOk = false ∧ { c1 with n := 17 }.ok = false ∧
      { c1 with leds := 0, n := 0 }.ok = false ∧ { c1 with ch := 2, perLed := 8, n := 8 }.ok = false := by decide

/-- C15 -/
theorem test_cfg_gap_size_refused : { c1 with g := 0 }.gapSizeOk = false ∧ { c1 with g := 0 }.ok = false := by decide

/-- C6 -/
theorem test_cfg_patterns_refused :
    { c1 with pt := #v[0x88, 0x8E, 0xE8, 0x88] }.patternsOk = false ∧
      { c1 with pt := #v[0x88, 0x8E, 0xE8, 0x88] }.ok = false := by decide

/-- C2, C4 -/
theorem test_cfg_gap_time_refused :
    { c1 with sclkHz := 3800000 }.gapTimeOk = false ∧ { c1 with sclkHz := 3800000 }.ok = false ∧
      { c1 with g := 142, sclkHz := 3800000 }.ok = false := by decide

/-- R101: an ill-formed configuration is refused before any step. -/
theorem test_ill_formed_refused : step (at0 { c1 with g := 0 } [.gpe]) = .refused .configIllFormed := rfl

/-! ### Decode: vectors T1 to T10 -/

theorem test_decode_gpe :
    decode .gpe 0x000000000#34 = .gpeRsvd00 ∧ decode .gpe 0x0FFFFFFFF#34 = .gpeRsvd00 ∧
      decode .gpe 0x100000000#34 = .gpeColor 0 0 0 0 ∧ decode .gpe 0x1FF008001#34 = .gpeColor 0xFF 0x00 0x80 0x01 ∧
      decode .gpe 0x1FFFFFFFF#34 = .gpeColor 255 255 255 255 ∧ decode .gpe 0x200000000#34 = .gpeEnd ∧
      decode .gpe 0x312345678#34 = .gpeRsvd11 := by decide

theorem test_decode_spe :
    decode .spe 0x000000000#34 = .speInit ∧ decode .spe 0x100000000#34 = .speColor 0 0 0 0 ∧
      decode .spe 0x112345678#34 = .speColor 0x12 0x34 0x56 0x78 ∧ decode .spe 0x2DEADBEEF#34 = .speEnd ∧
      decode .spe 0x300000000#34 = .speRsvd11 := by decide

/-- The word written out bit by bit from R51: `01`, then 12, 34, 56, 78 in hexadecimal. -/
theorem test_decode_bits :
    decode .gpe 0b01_00010010_00110100_01010110_01111000#34 = .gpeColor 0x12 0x34 0x56 0x78 ∧
      decode .spe 0b01_00010010_00110100_01010110_01111000#34 = .speColor 0x12 0x34 0x56 0x78 ∧
      decode .gpe 0b10_00000000_00000000_00000000_00000000#34 = .gpeEnd ∧
      decode .spe 0b00_00000000_00000000_00000000_00000000#34 = .speInit := by decide

theorem test_encode :
    encode (.gpeColor 0x12 0x34 0x56 0x78) = 0x112345678#34 ∧ encode .gpeEnd = 0x200000000#34 ∧
      encode .gpeRsvd00 = 0x000000000#34 ∧ encode .gpeRsvd11 = 0x300000000#34 ∧ encode .speInit = 0x000000000#34 ∧
      encode (.speColor 0xFF 0x00 0x80 0x01) = 0x1FF008001#34 ∧ encode .speEnd = 0x200000000#34 ∧
      encode .speRsvd11 = 0x300000000#34 := by decide

/-- A table word: bit 34 names the channel (log entry 9); a higher bit is no token. -/
theorem test_table_words :
    decodeTableWord 40 0x112345678 = some (.gpeColor 0x12 0x34 0x56 0x78) ∧
      decodeTableWord 40 (2 ^ 34 + 0x112345678) = some (.speColor 0x12 0x34 0x56 0x78) ∧
      decodeTableWord 40 (2 ^ 34) = some .speInit ∧ decodeTableWord 40 (2 ^ 35) = none := by decide

/-! ### Responses: vectors Q1 to Q6 -/

theorem test_response_words :
    responseWord c1 .ok 0 = 0x000 ∧ responseWord c1 .writeErr 0x5A = 0x15A ∧ responseWord c1 .writeErr 0 = 0x100 ∧
      responseWord c1 .writeErr 0xFF = 0x1FF ∧ responseWord c1 .flushErr 1 = 0x201 ∧
      responseWord c1 .illegal 0 = 0x300 := by decide

/-! ### GPE scripts: vectors G3 to G14 -/

/-- `D1 H D3 L` and `D1 H D1 L D2`. -/
def one : List GEvent := [.delay 1, .pinSet true, .delay 3, .pinSet false]
def zero : List GEvent := [.delay 1, .pinSet true, .delay 1, .pinSet false, .delay 2]

/-- G3, G4, G5 -/
theorem test_bytescript :
    byteScript c1 0xA5 = one ++ zero ++ one ++ zero ++ zero ++ one ++ zero ++ one ∧
      byteScript c1 0x80 = one ++ zero ++ zero ++ zero ++ zero ++ zero ++ zero ++ zero ∧
      byteScript c1 0x01 = zero ++ zero ++ zero ++ zero ++ zero ++ zero ++ zero ++ one := by decide

/-- G6, G7 -/
theorem test_bytescript_low1 :
    (byteScript { c1 with tLow1 := some 2 } 0xA5).length = 40 ∧
      requestedTime (byteScript { c1 with tLow1 := some 2 } 0xA5) = 40 ∧
      (byteScript { c1 with tLow1 := some 0 } 0xA5).length = 40 ∧
      requestedTime (byteScript { c1 with tLow1 := some 0 } 0xA5) = 32 := by decide

/-- G10, G11, G12: lengths, and which end the single 1 bit is at -/
theorem test_colorscript :
    (colorScript c1 0x80000000).take 9 = one ++ zero.take 5 ∧ (colorScript c1 0x80000000).length = 159 ∧
      (colorScript c1 0x00000001).drop 155 = one ∧ (colorScript c1 0x00000001).length = 159 ∧
      (colorScript c1 0x12345678).length = 147 := ⟨rfl, rfl, rfl, rfl, rfl⟩

/-! ### GPE tokens -/

/-- G12 -/
theorem test_gpe_color :
    nextIs (exec (.gpeColor 0x12 0x34 0x56 0x78) (at0 c1 []))
      (fun t => t.gpe.col == 0x12345678 && t.gpe.run == .color && t.gpe.pc == 0) = true := by decide

/-- R63: a token offered during a colour waits. -/
theorem test_gpe_color_waits :
    nextIs (exec (.gpeColor 1 2 3 4) (st c1 (gpeIn .color 7 5 false) (spe0 [] 0) []))
      (fun t => t.gpe == gpeIn .color 7 5 false) = true := by decide

/-- G14 -/
theorem test_gpe_end :
    nextIs (exec .gpeEnd (at0 c1 []))
      (fun t => t.gpe.script c1 == [.pinSet false, .delay 90, .rsp .ok 0] && t.gpe.fault == false) = true := by decide

/-- G16, G17 -/
theorem test_gpe_illegal :
    nextIs (exec .gpeRsvd00 (at0 c1 [])) (fun t => t.gpe.fault && t.gpe.script c1 == [.rsp .illegal 0]) = true ∧
      nextIs (exec .gpeRsvd11 (at0 c1 [])) (fun t => t.gpe.fault && t.gpe.script c1 == [.rsp .illegal 0]) = true := by
  decide

/-- R64's example: `PinSet(1)` answered `pin_err = 1` leaves `G_PINQ = 1` and `G_PC` one greater. -/
theorem test_pin_error_ignored :
    nextIs (step (st c1 (gpeIn .color 0x80000000 1 true) (spe0 [] 0) [.pinAnswer true]))
      (fun t => t.gpe.pinq && t.gpe.pc == 2 && !t.gpe.wait) = true := by decide

/-- G14: the response word the host takes. -/
theorem test_gpe_response :
    nextIs (step (st c1 (gpeIn .endTok 0 2 true) (spe0 [] 0) [.gpeRspTaken]))
      (fun t => t.gpe.rsp == [0x000] && t.gpe.pc == 3) = true := by decide

/-! ### SPE expansion: vectors X1 to X18 -/

theorem test_expand :
    ([0x00, 0xFF, 0x1B, 0xE4, 0xA5, 0x55, 0xAA, 0x80, 0x40].map (expand c1) : List (List Byte)) =
      [[0x88, 0x88, 0x88, 0x88], [0xEE, 0xEE, 0xEE, 0xEE], [0x88, 0x8E, 0xE8, 0xEE], [0xEE, 0xE8, 0x8E, 0x88],
        [0xE8, 0xE8, 0x8E, 0x8E], [0x8E, 0x8E, 0x8E, 0x8E], [0xE8, 0xE8, 0xE8, 0xE8], [0xE8, 0x88, 0x88, 0x88],
        [0x8E, 0x88, 0x88, 0x88]] := by decide

/-- R33: `r` at 0..3, `w` at 12..15 (S2); with `CH = 3` slot 1 starts at 12 (S6). -/
theorem test_addr : addr c1 0 0 0 = 0 ∧ addr c1 0 3 3 = 15 ∧ addr c2 1 0 0 = 16 ∧ addr c3 1 0 0 = 12 := by decide

/-! ### SPE tokens -/

/-- S18, S1: `INIT` zeroes the buffer. -/
theorem test_spe_init :
    nextIs (exec .speInit (st c1 (Gpe.atReset 0) (Spe.atReset (filled 16 0x88)) []))
      (fun t => frame c1 t.spe.fb == List.replicate 16 0 && t.spe.init && t.spe.trace == []) = true := by decide

/-- S16 -/
theorem test_spe_init_inside_write :
    nextIs (exec .speInit (st c2 (Gpe.atReset 0) (spe0 (filled 16 0x88) 1) []))
      (fun t => t.spe.fault && t.spe.k == 1 && t.spe.fb == filled 16 0x88 && t.spe.run == .ill) = true := by decide

/-- S2 -/
theorem test_spe_color :
    nextIs (exec (.speColor 0x12 0x34 0x56 0x78) (st c1 (Gpe.atReset 0) (spe0 [] 0) []))
      (fun t => t.spe.k == 1 && frame c1 t.spe.fb ==
        [0x88, 0x8E, 0x88, 0xE8, 0x88, 0xEE, 0x8E, 0x88, 0x8E, 0x8E, 0x8E, 0xE8, 0x8E, 0xEE, 0xE8, 0x88]) = true := by
  decide

/-- S6: with `CH = 3`, slot 1 is at addresses 12 to 23 and the white byte is not read. -/
theorem test_spe_color_three_channels :
    nextIs (exec (.speColor 0xAA 0xBB 0xCC 0xDD) (st c3 (Gpe.atReset 0) (spe0 [] 1) []))
      (fun t => t.spe.k == 2 && frame c3 t.spe.fb ==
        List.replicate 12 0 ++ [0xE8, 0xE8, 0xE8, 0xE8, 0xE8, 0xEE, 0xE8, 0xEE, 0xEE, 0x88, 0xEE, 0x88]) = true := by
  decide

/-- S1, S15: `END` starts its transfers after `INIT`, and is illegal before it. -/
theorem test_spe_end :
    nextIs (exec .speEnd (st c1 (Gpe.atReset 0) (spe0 (filled 16 0x88) 1) []))
      (fun t => t.spe.run == .endTok && t.spe.pc == 0 && t.spe.st == .ok && t.spe.code == 0) = true ∧
      nextIs (exec .speEnd (at0 c1 [])) (fun t => t.spe.fault && t.spe.run == .ill && !t.spe.init) = true := by decide

/-- S17 -/
theorem test_spe_illegal :
    nextIs (exec .speRsvd11 (st c1 (Gpe.atReset 0) (spe0 [] 0) [])) (fun t => t.spe.fault && t.spe.run == .ill) = true := by
  decide

/-- S1: the first transaction of `END` is the whole frame buffer. -/
theorem test_spe_data_transfer :
    nextIs (step (st c1 (Gpe.atReset 0) (speIn (filled 16 0x88) 0 false) [.spe]))
      (fun t => t.spe.trace == [.serWrite (List.replicate 16 0x88)] && t.spe.wait) = true := by decide

/-- S11, S12, S13, S14: where a failed transaction leaves the status, and that the response is next. -/
theorem test_spe_failures :
    nextIs (step (st c1 (Gpe.atReset 0) (speIn [] 0 true) [.serAnswer (.err 0x5A)]))
        (fun t => t.spe.st == .writeErr && t.spe.code == 0x5A && t.spe.pc == 3) = true ∧
      nextIs (step (st c1 (Gpe.atReset 0) (speIn [] 1 true) [.serAnswer (.err 0x07)]))
        (fun t => t.spe.st == .writeErr && t.spe.code == 0x07 && t.spe.pc == 3) = true ∧
      nextIs (step (st c1 (Gpe.atReset 0) (speIn [] 2 true) [.serAnswer (.err 0x01)]))
        (fun t => t.spe.st == .flushErr && t.spe.code == 0x01 && t.spe.pc == 3) = true ∧
      nextIs (step (st c1 (Gpe.atReset 0) (speIn [] 0 true) [.serAnswer (.err 0)]))
        (fun t => t.spe.st == .writeErr && t.spe.code == 0 && t.spe.pc == 3) = true := by decide

/-! ### Hardware reset: vectors Z1, Z2 -/

theorem test_reset_mid_colour :
    nextIs (step (st c1 { gpeIn .color 0xFF000000 2 false with pinq := true } (spe0 [] 0) [.rst 0x55 []]))
      (fun t => !t.gpe.pinq && t.gpe.run == .idle && t.gpe.pc == 0 && !t.gpe.fault && t.gpe.trace == []) = true := by
  decide

theorem test_reset_mid_end :
    nextIs (step (st c1 (Gpe.atReset 0) (speIn (filled 16 0x88) 0 true) [.rst 0 [1, 2, 3]]))
      (fun t => !t.spe.init && t.spe.k == 0 && t.spe.run == .idle && t.spe.pc == 0 && !t.spe.fault && !t.spe.wait &&
        t.spe.rsp == []) = true := by decide

/-! ### Witnesses: for every statement with hypotheses, states and operands that meet them -/

/-- EveryWordDecodesByKind: one word under each clause, with a payload. -/
theorem wit_EveryWordDecodesByKind :
    (0x0FFFFFFFF#34 &&& 0x300000000#34 = 0x000000000#34) ∧ (0x112345678#34 &&& 0x300000000#34 = 0x100000000#34) ∧
      (0x2DEADBEEF#34 &&& 0x300000000#34 = 0x200000000#34) ∧ (0x3FFFFFFFF#34 &&& 0x300000000#34 = 0x300000000#34) := by
  decide

/-- OnlyIllFormedConfigurationStops, CfgOkIsItsClauses: a state under each clause. -/
theorem wit_OnlyIllFormedConfigurationStops :
    (at0 { c1 with g := 0 } [.gpe]).cfg.ok = false ∧ (at0 c1 [.gpe]).cfg.ok = true := by decide

/-- ConfigurationConstant: a step and a token that answer a next state. -/
theorem wit_ConfigurationConstant :
    (∃ t, step (at0 c1 [.gpeToken 0]) = .next t) ∧ ∃ t, exec .speInit (at0 c1 []) = .next t := ⟨⟨_, rfl⟩, _, rfl⟩

/-- HardwareResetFromAnyState: a reset in mid-colour and mid-`END`, and a late answer. -/
theorem wit_HardwareResetFromAnyState :
    (st c1 (gpeIn .color 7 3 true) (speIn [(0, 1)] 0 true) [.rst 5 [1, 2], .gpe]).cfg.ok = true ∧
      (st c1 (gpeIn .color 7 3 true) (speIn [(0, 1)] 0 true) [.rst 5 [1, 2], .gpe]).agenda = .rst 5 [1, 2] :: [.gpe] ∧
      (at0 c1 [.lateAnswer]).agenda = .lateAnswer :: [] := by decide

/-- HardwareResetFromAnyState, the answers that fit nothing: to a GPE that waits for nothing, and of another kind than the
element it waits for. -/
theorem wit_HardwareResetFromAnyState_gpe :
    ((at0 c1 [.pinAnswer true]).agenda = .pinAnswer true :: [] ∧ (at0 c1 [.pinAnswer true]).gpe.wait = false) ∧
      ((at0 c1 [.delayDone]).agenda = .delayDone :: [] ∧ (at0 c1 [.delayDone]).gpe.wait = false) ∧
      ((at0 c1 [.gpeRspTaken]).agenda = .gpeRspTaken :: [] ∧ (at0 c1 [.gpeRspTaken]).gpe.wait = false) ∧
      (let g := gpeIn .endTok 0 1 true
       (∀ v, (g.script c1)[g.pc.toNat]? ≠ some (.pinSet v)) ∧ ∀ r code, (g.script c1)[g.pc.toNat]? ≠ some (.rsp r code)) ∧
      (let g := gpeIn .endTok 0 0 true
       ∀ n, (g.script c1)[g.pc.toNat]? ≠ some (.delay n)) :=
  ⟨by decide, by decide, by decide, ⟨(by intro v h; cases h), (by intro r code h; cases h)⟩, (by intro _ n h; cases h)⟩

/-- HardwareResetFromAnyState, the same of the SPE, at the response and just before it. -/
theorem wit_HardwareResetFromAnyState_spe :
    ((at0 c1 [.serAnswer .ok]).agenda = .serAnswer .ok :: [] ∧ (at0 c1 [.serAnswer .ok]).spe.wait = false) ∧
      ((at0 c1 [.speRspTaken]).agenda = .speRspTaken :: [] ∧ (at0 c1 [.speRspTaken]).spe.run = .idle) ∧
      (speIn [] 3 true).pc = 3 ∧ ({ spe0 [] 0 with run := .ill, fault := true, wait := true } : Spe).run ≠ .endTok ∧
      ((speIn [] 2 true).run = .endTok ∧ (speIn [] 2 true).pc ≠ 3) := by decide

/-- An engine with one word on its channel, about to move. -/
def gpeOffered (t : Token) (ms : List Move) : State := st c1 { Gpe.atReset 0 with tok := [t] } (spe0 [] 0) ms
def speOffered (m : Memory) (k : Nat) (ts : List Token) (ms : List Move) : State :=
  st c1 (Gpe.atReset 0) { spe0 m k with tok := ts } ms

/-- StepRunsTheDecodedToken: both clauses. -/
theorem wit_StepRunsTheDecodedToken :
    (let s := gpeOffered 0x112345678#34 [.gpe]
     s.cfg.ok = true ∧ s.agenda = .gpe :: [] ∧ s.gpe.wait = false ∧ s.gpe.run = .idle ∧ s.gpe.tok = 0x112345678#34 :: []) ∧
      (let s := speOffered [] 0 [0x112345678#34] [.spe]
       s.cfg.ok = true ∧ s.agenda = .spe :: [] ∧ s.spe.wait = false ∧ s.spe.run = .idle ∧
         s.spe.tok = 0x112345678#34 :: []) := by decide

/-- PlacedWordRunsNext: a word for each engine. -/
theorem wit_PlacedWordRunsNext :
    State.reset.cfg.ok = true ∧ decodeTableWord 40 0x200000000 = some .gpeEnd ∧
      decodeTableWord 40 (2 ^ 34 + 0x200000000) = some .speEnd := by decide

/-- BusyOrFaultedEngineTakesNothing: a busy and a faulted engine, each, and a step of busy engines. -/
theorem wit_BusyOrFaultedEngineTakesNothing :
    (engineOf .gpeEnd = .gpe ∧ (gpeIn .color 0 3 false).run ≠ .idle ∧ ({ Gpe.atReset 0 with fault := true } : Gpe).fault = true ∧
      engineOf .speEnd = .spe ∧ (speIn [] 0 true).run ≠ .idle ∧ ({ spe0 [] 0 with fault := true } : Spe).fault = true) ∧
      (let s := st c1 (gpeIn .color 0 3 false) (speIn [] 0 true) [.gpe]
       (∃ t, step s = .next t) ∧ s.gpe.run ≠ .idle ∧ s.spe.run ≠ .idle ∧ ∀ col fill ms, s.agenda ≠ .rst col fill :: ms) :=
  ⟨by decide, ⟨_, rfl⟩, by decide, by decide, (by intro _ _ _ h; cases h)⟩

/-- GpeColorTaken, GpeEndTaken, GpeReservedTokensFault. -/
theorem wit_GpeTokensTaken :
    (at0 c1 []).gpe.run = .idle ∧ (at0 c1 []).gpe.fault = false ∧
      (Instr.gpeRsvd00 = .gpeRsvd00 ∨ Instr.gpeRsvd00 = .gpeRsvd11) ∧
      (Instr.gpeRsvd11 = .gpeRsvd00 ∨ Instr.gpeRsvd11 = .gpeRsvd11) := by decide

/-- GpeTokensFrame: a token that is no colour and is legal, and one that is taken. -/
theorem wit_GpeTokensFrame :
    engineOf .gpeEnd = .gpe ∧ (∃ t, exec .gpeEnd (at0 c1 []) = .next t) ∧ (∀ r g b w, Instr.gpeEnd ≠ .gpeColor r g b w) ∧
      Instr.gpeEnd ≠ .gpeRsvd00 ∧ Instr.gpeEnd ≠ .gpeRsvd11 :=
  ⟨rfl, ⟨_, rfl⟩, (by intro _ _ _ _ h; cases h), by decide, by decide⟩

/-- BitWaveforms: `T_LOW1` absent and present. -/
theorem wit_BitWaveforms : c1.tLow1 = none ∧ { c1 with tLow1 := some 0 }.tLow1 = some 0 := by decide

/-- GpeScriptElements: a delay and each response. -/
theorem wit_GpeScriptElements :
    c1.ok = true ∧ GEvent.delay 90 ∈ (gpeIn .endTok 0 0 false).script c1 ∧
      GEvent.rsp .ok 0 ∈ (gpeIn .endTok 0 0 false).script c1 ∧
      GEvent.rsp .illegal 0 ∈ (gpeIn .ill 0 0 false).script c1 := by decide

/-- GpeIssuesOrRetires: the first element, the last, and past the last. -/
theorem wit_GpeIssuesOrRetires :
    (let s := st c1 (gpeIn .endTok 0 0 false) (spe0 [] 0) [.gpe]
     s.cfg.ok = true ∧ s.agenda = .gpe :: [] ∧ s.gpe.wait = false ∧ s.gpe.run ≠ .idle ∧
       (s.gpe.script s.cfg)[s.gpe.pc.toNat]? = some (.pinSet false)) ∧
      ((gpeIn .endTok 0 2 false).script c1)[(gpeIn .endTok 0 2 false).pc.toNat]? = some (.rsp .ok 0) ∧
      (gpeIn .endTok 0 3 false).pc.toNat = ((gpeIn .endTok 0 3 false).script c1).length := by decide

/-- PinFailureIsDiscarded: a failing and a succeeding pin, high and low. -/
theorem wit_PinFailureIsDiscarded :
    (let s := st c1 (gpeIn .color 0x80000000 1 true) (spe0 [] 0) [.pinAnswer true]
     s.cfg.ok = true ∧ s.agenda = .pinAnswer true :: [] ∧ s.gpe.wait = true ∧
       (s.gpe.script s.cfg)[s.gpe.pc.toNat]? = some (.pinSet true)) ∧
      (let s := st c1 (gpeIn .endTok 0 0 true) (spe0 [] 0) [.pinAnswer false]
       s.agenda = .pinAnswer false :: [] ∧ s.gpe.wait = true ∧
         (s.gpe.script s.cfg)[s.gpe.pc.toNat]? = some (.pinSet false)) := by decide

/-- GpeDelayAndResponseAnswered: both clauses. -/
theorem wit_GpeDelayAndResponseAnswered :
    (let s := st c1 (gpeIn .endTok 0 1 true) (spe0 [] 0) [.delayDone]
     s.cfg.ok = true ∧ s.gpe.wait = true ∧ s.agenda = .delayDone :: [] ∧
       (s.gpe.script s.cfg)[s.gpe.pc.toNat]? = some (.delay 90)) ∧
      (let s := st c1 (gpeIn .endTok 0 2 true) (spe0 [] 0) [.gpeRspTaken]
       s.cfg.ok = true ∧ s.gpe.wait = true ∧ s.agenda = .gpeRspTaken :: [] ∧
         (s.gpe.script s.cfg)[s.gpe.pc.toNat]? = some (.rsp .ok 0)) := by decide

/-- The events that issue a script and answer it, every pin command with a failure. -/
def playOf (es : List GEvent) : List Move :=
  es.flatMap fun e =>
    match e with
    | .pinSet _ => [.gpe, .pinAnswer true]
    | .delay _ => [.gpe, .delayDone]
    | .rsp _ _ => [.gpe, .gpeRspTaken]

theorem playsScript_playOf (es : List GEvent) : playsScript es (playOf es) = true := by
  induction es with
  | nil => rfl
  | cons e es ih => cases e <;> simpa [playOf, playsScript, answersGpe] using ih

/-- GpeTokenRunsItsScript: every word, whatever its kind, on an idle GPE. -/
theorem wit_GpeTokenRunsItsScript (w : Token) :
    let s := gpeOffered w (.gpe :: (playOf (tokenScript c1 w) ++ .gpe :: []))
    s.cfg.ok = true ∧ s.gpe.run = .idle ∧ s.gpe.fault = false ∧ s.gpe.wait = false ∧ s.gpe.pinq = false ∧
      s.gpe.tok = w :: [] ∧ s.agenda = .gpe :: (playOf (tokenScript c1 w) ++ .gpe :: []) ∧
      playsScript (tokenScript s.cfg w) (playOf (tokenScript c1 w)) = true :=
  ⟨test_cfg_ref_ok, rfl, rfl, rfl, rfl, rfl, rfl, playsScript_playOf _⟩

/-- GpeWriteTrace: a write of two colours, and the empty write. -/
theorem wit_GpeWriteTrace :
    (let g : Gpe := { Gpe.atReset 0 with tok := [0x112345678#34, 0x1FF008001#34, 0x200000000#34] }
     g.run = .idle ∧ g.fault = false ∧ g.tok = (gpeWrite [⟨0x12, 0x34, 0x56, 0x78⟩, ⟨0xFF, 0, 0x80, 1⟩]).map encode) ∧
      [0x200000000#34] = (gpeWrite []).map encode := by decide

/-- GpeTraceIsAFunctionOfItsTokens: a failing pin command in a colour. -/
theorem wit_GpeTraceIsAFunctionOfItsTokens :
    let s := st c1 (gpeIn .color 0x80000000 1 true) (spe0 [] 0) [.pinAnswer true]
    (∃ t, step s = .next t) ∧ (∀ w ms, s.agenda ≠ .gpeToken w :: ms) ∧ (∀ col fill ms, s.agenda ≠ .rst col fill :: ms) :=
  ⟨⟨_, rfl⟩, (by intro _ _ h; cases h), (by intro _ _ _ h; cases h)⟩

/-- GpeTraceIsAFunctionOfItsTokens: a word that joins a channel of legal words, and one behind an illegal word. -/
theorem wit_GpeTraceIsAFunctionOfItsTokens_word :
    (let s := gpeOffered 0x112345678#34 [.gpeToken 0x200000000#34]
     (∃ t, step s = .next t) ∧ (∀ col fill ms, s.agenda ≠ .rst col fill :: ms) ∧
       s.agenda = .gpeToken 0x200000000#34 :: [] ∧ s.gpe.fault = false ∧ ∀ x ∈ s.gpe.tok, tokenLegal x = true) ∧
      (let s := gpeOffered 0x300000000#34 [.gpeToken 0x200000000#34]
       (∃ t, step s = .next t) ∧ ¬ ∀ x ∈ s.gpe.tok, tokenLegal x = true) :=
  ⟨⟨⟨_, rfl⟩, (by intro _ _ _ h; cases h), rfl, rfl,
      (by show ∀ x ∈ [0x112345678#34], tokenLegal x = true; simp; decide)⟩, ⟨_, rfl⟩,
    (by show ¬ ∀ x ∈ [0x300000000#34], tokenLegal x = true; simp; decide)⟩

/-- SpeInitZeroesTheBuffer: before the first `INIT`, with something in the buffer, and a second `INIT`. -/
theorem wit_SpeInitZeroesTheBuffer :
    (let s := st c1 (Gpe.atReset 0) (Spe.atReset (filled 16 0x88)) []
     s.spe.fb.wf = true ∧ s.spe.run = .idle ∧ s.spe.fault = false ∧ s.spe.k = 0) ∧
      (let s := st c1 (Gpe.atReset 0) (spe0 (filled 16 0x88) 0) []
       s.spe.fb.wf = true ∧ s.spe.run = .idle ∧ s.spe.fault = false ∧ s.spe.k = 0) := by decide

/-- SpeColorWritesItsSlot: the last slot, with three channels and with four; the last channel and pair; the bytes beside. -/
theorem wit_SpeColorWritesItsSlot :
    (let s := st c3 (Gpe.atReset 0) (spe0 (filled 24 0x88) 1) []
     s.cfg.ok = true ∧ s.spe.fb.wf = true ∧ s.spe.run = .idle ∧ s.spe.fault = false ∧ s.spe.init = true ∧
       s.spe.k < s.cfg.leds ∧ 2 < s.cfg.ch ∧ 11 < addr s.cfg s.spe.k 0 0 ∧ addr s.cfg (s.spe.k + 1) 0 0 ≤ 24) ∧
      (let s := st c2 (Gpe.atReset 0) (spe0 (filled 32 0x88) 0) []
       s.cfg.ok = true ∧ s.spe.fb.wf = true ∧ s.spe.k < s.cfg.leds ∧ 3 < s.cfg.ch ∧
         addr s.cfg (s.spe.k + 1) 0 0 ≤ 16) := by decide

/-- ExcessColourIsDropped: the slot after the last. -/
theorem wit_ExcessColourIsDropped :
    let s := st c1 (Gpe.atReset 0) (spe0 (filled 16 0x88) 1) []
    s.spe.run = .idle ∧ s.spe.fault = false ∧ s.spe.init = true ∧ s.cfg.leds ≤ s.spe.k := by decide

/-- SpeEndTaken. -/
theorem wit_SpeEndTaken :
    let s := st c1 (Gpe.atReset 0) (spe0 (filled 16 0x88) 1) []
    s.spe.run = .idle ∧ s.spe.fault = false ∧ s.spe.init = true := by decide

/-- SpeIllegalTokensFault: each of the four clauses. -/
theorem wit_SpeIllegalTokensFault :
    (let s := at0 c1 []
     s.spe.run = .idle ∧ s.spe.fault = false ∧ Instr.speRsvd11 = .speRsvd11 ∧ (Instr.speEnd = .speEnd ∧ s.spe.init = false)) ∧
      (let s := st c2 (Gpe.atReset 0) (spe0 [] 1) []
       s.spe.run = .idle ∧ s.spe.fault = false ∧ (Instr.speInit = .speInit ∧ s.spe.k ≠ 0)) ∧
      ((∃ r g b w, Instr.speColor 1 2 3 4 = .speColor r g b w) ∧ (at0 c1 []).spe.init = false) :=
  ⟨by decide, by decide, ⟨⟨1, 2, 3, 4, rfl⟩, rfl⟩⟩

/-- SpeTokensFrame: a token of each shape. -/
theorem wit_SpeTokensFrame :
    let s := st c2 (Gpe.atReset 0) (spe0 (filled 16 0x88) 0) []
    s.cfg.ok = true ∧ s.spe.fb.wf = true ∧ s.spe.init = true ∧
      (engineOf .speEnd = .spe ∧ ∃ t, exec .speEnd s = .next t) ∧ (engineOf .speInit = .spe ∧ ∃ t, exec .speInit s = .next t) ∧
      (engineOf .speRsvd11 = .spe ∧ ∃ t, exec .speRsvd11 s = .next t) ∧
      ((∃ r g b w, Instr.speColor 1 2 3 4 = .speColor r g b w) ∧ ∃ t, exec (.speColor 1 2 3 4) s = .next t) :=
  ⟨by decide, by decide, rfl, ⟨rfl, _, rfl⟩, ⟨rfl, _, rfl⟩, ⟨rfl, _, rfl⟩, ⟨1, 2, 3, 4, rfl⟩, _, rfl⟩

/-- AddressMapIsABijection: the last byte of the buffer, and equal addresses. -/
theorem wit_AddressMapIsABijection :
    c3.ok = true ∧ 1 < c3.leds ∧ 2 < c3.ch ∧ 3 < 4 ∧ addr c3 1 2 3 = addr c3 1 2 3 ∧ 23 < c3.n := by decide

/-- ExpansionIsMsbPairFirstAndInjective. -/
theorem wit_ExpansionIsMsbPairFirstAndInjective : c1.ok = true ∧ expand c1 0x1B = expand c1 0x1B := by decide

/-- DefaultTableShapesBits. -/
theorem wit_DefaultTableShapesBits : c1.pt = #v[0x88, 0x8E, 0xE8, 0xEE] := rfl

/-- OnlyInitAndColourWriteTheBuffer: an `INIT`, a `COLOR` and a reset that change the buffer. -/
theorem wit_OnlyInitAndColourWriteTheBuffer :
    (∃ t, step (speOffered (filled 16 0x88) 0 [0x000000000#34] [.spe]) = .next t ∧ t.spe.fb ≠ filled 16 0x88) ∧
      (∃ t, step (speOffered [] 0 [0x112345678#34] [.spe]) = .next t ∧ t.spe.fb ≠ []) ∧
      (∃ t, step (speOffered [] 0 [] [.rst 0 [1]]) = .next t ∧ t.spe.fb ≠ []) :=
  ⟨⟨_, rfl, by decide⟩, ⟨_, rfl, by decide⟩, _, rfl, by decide⟩

/-- SpeIssuesInOrder: each point of the script. -/
theorem wit_SpeIssuesInOrder :
    (∀ pc : BitVec 2, let s := st c1 (Gpe.atReset 0) (speIn (filled 16 0x88) pc false) [.spe]
      s.cfg.ok = true ∧ s.agenda = .spe :: [] ∧ s.spe.wait = false ∧ s.spe.run = .endTok ∧ s.spe.pc = pc) ∧
      (let s := st c1 (Gpe.atReset 0) { spe0 [] 0 with run := .ill, fault := true } [.spe]
       s.cfg.ok = true ∧ s.agenda = .spe :: [] ∧ s.spe.wait = false ∧ s.spe.run = .ill) := by decide

/-- SerialSuccessAdvances: each transaction. -/
theorem wit_SerialSuccessAdvances :
    ∀ pc : BitVec 2, pc ≠ 3 →
      let s := st c1 (Gpe.atReset 0) (speIn [] pc true) [.serAnswer .ok]
      s.cfg.ok = true ∧ s.agenda = .serAnswer .ok :: [] ∧ s.spe.wait = true ∧ s.spe.run = .endTok ∧ s.spe.pc ≠ 3 := by
  decide

/-- SerialFailureAborts: each transaction, the least and the greatest code. -/
theorem wit_SerialFailureAborts :
    (∀ pc : BitVec 2, let s := st c1 (Gpe.atReset 0) (speIn [] pc true) [.serAnswer (.err 255)]
      s.cfg.ok = true ∧ s.agenda = .serAnswer (.err 255) :: [] ∧ s.spe.wait = true ∧ s.spe.run = .endTok ∧
        0 < 2 ^ s.cfg.ew ∧ 255 < 2 ^ s.cfg.ew ∧ s.spe.pc = pc) := by decide

/-- SpeResponseEndsTheToken: both clauses. -/
theorem wit_SpeResponseEndsTheToken :
    (let s := st c1 (Gpe.atReset 0) (speIn [] 3 true) [.speRspTaken]
     s.cfg.ok = true ∧ s.agenda = .speRspTaken :: [] ∧ s.spe.wait = true ∧ s.spe.run = .endTok ∧ s.spe.pc = 3) ∧
      (let s := st c1 (Gpe.atReset 0) { spe0 [] 0 with run := .ill, fault := true, wait := true } [.speRspTaken]
       s.cfg.ok = true ∧ s.agenda = .speRspTaken :: [] ∧ s.spe.wait = true ∧ s.spe.run = .ill) := by decide

/-- Two colours: more than `L` for `CFG_REF` with one LED. -/
def two : List Colour := [⟨0x12, 0x34, 0x56, 0x78⟩, ⟨0xFF, 0, 0x80, 1⟩]

/-- SpeWriteSendsTheFrame: a write of more colours than slots over a full buffer, and the empty write. -/
theorem wit_SpeWriteSendsTheFrame :
    (let s := speOffered (filled 16 0x88) 0 ((speWrite two).map encode) (speWriteMoves 2)
     s.cfg.ok = true ∧ s.spe.fb.wf = true ∧ s.spe.run = .idle ∧ s.spe.fault = false ∧ s.spe.wait = false ∧
       s.spe.init = true ∧ s.spe.k = 0 ∧ s.spe.tok = (speWrite two).map encode ++ [] ∧
       s.agenda = speWriteMoves two.length ++ []) ∧
      (let s := speOffered (filled 16 0x88) 0 ((speWrite []).map encode) (speWriteMoves 0)
       s.spe.tok = (speWrite []).map encode ++ [] ∧ s.agenda = speWriteMoves 0 ++ []) := by decide

/-- FreshWriteIsIdempotent: over a full buffer. -/
theorem wit_FreshWriteIsIdempotent :
    let s := speOffered (filled 16 0x88) 0 (encode .speInit :: (speWrite two).map encode) (.spe :: speWriteMoves 2)
    s.cfg.ok = true ∧ s.spe.fb.wf = true ∧ s.spe.run = .idle ∧ s.spe.fault = false ∧ s.spe.wait = false ∧
      s.spe.k = 0 ∧ s.spe.tok = encode .speInit :: ((speWrite two).map encode ++ []) ∧
      s.agenda = .spe :: (speWriteMoves two.length ++ []) := by decide

/-- ResponseWordIsDecodable: the greatest code, equal words, and `EW = 8`. -/
theorem wit_ResponseWordIsDecodable :
    255 < 2 ^ c1.ew ∧ responseWord c1 .flushErr 255 = responseWord c1 .flushErr 255 ∧ c1.ew = 8 := by decide

/-- A state in the middle of both engines' `END`. -/
def midway (m : Move) : State :=
  st c1 (gpeIn .endTok 0 1 true) (speIn [(15, 0x88)] 1 true) [m]

/-- InvariantKeptByEveryStep: a state of the invariant that is not idle, and its step. -/
theorem wit_InvariantKeptByEveryStep : (midway .delayDone).Inv ∧ ∃ t, step (midway .delayDone) = .next t := by
  refine ⟨⟨by decide, ⟨by decide, by decide, by decide, by decide, by decide⟩, ?_⟩, _, rfl⟩
  refine ⟨by decide, fun a ha => ?_, by decide, by decide, by decide, by decide, by decide, by decide, by decide,
    by decide, by decide, by decide, by decide⟩
  have h16 : 16 ≤ a := ha
  have hne : 15 ≠ a := by omega
  simp [midway, st, speIn, spe0, Spe.atReset, Memory.read, hne]

/-- EnginesDoNotInteract: two machines that differ in the other engine, and an event of each engine. -/
theorem wit_EnginesDoNotInteract :
    (let s := midway .delayDone
     let s' := st c1 (gpeIn .endTok 0 1 true) (spe0 [] 0) [.delayDone]
     s.cfg = s'.cfg ∧ s.agenda = s'.agenda ∧ (∃ t, step s = .next t) ∧ (∃ t, step s' = .next t) ∧ s.gpe = s'.gpe ∧
       s.spe ≠ s'.spe) ∧
      (let s := midway (.serAnswer .ok)
       let s' := st c1 (Gpe.atReset 0) (speIn [(15, 0x88)] 1 true) [.serAnswer .ok]
       s.cfg = s'.cfg ∧ s.agenda = s'.agenda ∧ (∃ t, step s = .next t) ∧ (∃ t, step s' = .next t) ∧ s.spe = s'.spe ∧
         s.gpe ≠ s'.gpe) :=
  ⟨⟨rfl, rfl, ⟨_, rfl⟩, ⟨_, rfl⟩, rfl, by decide⟩, rfl, rfl, ⟨_, rfl⟩, ⟨_, rfl⟩, rfl, by decide⟩

/-- OneTransactionOutstanding: a step that issues, in each engine. -/
theorem wit_OneTransactionOutstanding :
    (∃ t, step (st c1 (gpeIn .endTok 0 0 false) (spe0 [] 0) [.gpe]) = .next t ∧ t.gpe.trace = [.pinSet false]) ∧
      (∃ t, step (st c1 (Gpe.atReset 0) (speIn [] 2 false) [.spe]) = .next t ∧ t.spe.trace = [.serFlush]) :=
  ⟨⟨_, rfl, rfl⟩, _, rfl, rfl⟩

/-- OneTransactionOutstanding, no enabled step, in the GPE: waiting at the first and the last element of a script and in a
colour, idle with an empty channel, idle and faulted with a word waiting, and past the end of a script. -/
theorem wit_OneTransactionOutstanding_gpe :
    (let s := st c1 (gpeIn .endTok 0 1 true) (spe0 [] 0) [.gpe]
     s.cfg.ok = true ∧ s.agenda = .gpe :: [] ∧ s.gpe.wait = true) ∧
      (gpeIn .endTok 0 2 true).wait = true ∧ (gpeIn .color 7 0 true).wait = true ∧
      ((at0 c1 [.gpe]).gpe.run = .idle ∧ (at0 c1 [.gpe]).gpe.tok = []) ∧
      (let g : Gpe := { Gpe.atReset 0 with fault := true, tok := [0x200000000#34] }
       g.run = .idle ∧ g.fault = true) ∧
      ((gpeIn .endTok 0 4 false).run ≠ .idle ∧
        ((gpeIn .endTok 0 4 false).script c1).length < (gpeIn .endTok 0 4 false).pc.toNat) := by decide

/-- OneTransactionOutstanding, no enabled step, in the SPE, at each point of `END`; and an empty agenda. -/
theorem wit_OneTransactionOutstanding_spe :
    (∀ pc : BitVec 2, let s := st c1 (Gpe.atReset 0) (speIn [] pc true) [.spe]
      s.cfg.ok = true ∧ s.agenda = .spe :: [] ∧ s.spe.wait = true) ∧
      ((at0 c1 [.spe]).spe.run = .idle ∧ (at0 c1 [.spe]).spe.tok = []) ∧
      (let p : Spe := { spe0 [] 0 with fault := true, tok := [0x000000000#34] }
       p.run = .idle ∧ p.fault = true) ∧
      (at0 c1 []).agenda = [] := by decide

/-- R62: a GPE that waits for its delay does not go on by itself. -/
theorem test_gpe_waits_for_its_delay :
    nextIs (step (st c1 (gpeIn .endTok 0 1 true) (spe0 [] 0) [.gpe])) (fun t => t.gpe == gpeIn .endTok 0 1 true) = true := by
  decide

/-- FaultIsStickyUntilReset: a faulted engine with a word waiting, which another word joins. -/
theorem wit_FaultIsStickyUntilReset :
    (let s := st c1 { Gpe.atReset 0 with fault := true, tok := [0x200000000#34] } (spe0 [] 0) [.gpe]
     (∃ t, step s = .next t) ∧ (∀ col fill ms, s.agenda ≠ .rst col fill :: ms) ∧ s.gpe.fault = true) ∧
      (let s := st c1 (Gpe.atReset 0) { spe0 [] 0 with fault := true, tok := [0x000000000#34] } [.speToken 0]
       (∃ t, step s = .next t) ∧ (∀ col fill ms, s.agenda ≠ .rst col fill :: ms) ∧ s.spe.fault = true) :=
  ⟨⟨⟨_, rfl⟩, (by intro _ _ _ h; cases h), rfl⟩, ⟨_, rfl⟩, (by intro _ _ _ h; cases h), rfl⟩

/-- InvariantAtReset: well-formed configurations that differ in `L`, `CH` and the optional `T_LOW1`. -/
theorem wit_InvariantAtReset_cfg : c2.ok = true ∧ c3.ok = true ∧ { c1 with tLow1 := some 2 }.ok = true := by decide

/-- InvariantAtReset: an idle GPE under the invariant is met by the state after `midway`'s tokens, here idle after an `END`. -/
theorem wit_InvariantAtReset :
    (st c1 (gpeIn .idle 7 0 false) (speIn [(15, 0x88)] 1 true) []).Inv ∧
      (st c1 (gpeIn .idle 7 0 false) (speIn [(15, 0x88)] 1 true) []).gpe.run = .idle := by
  refine ⟨⟨by decide, ⟨by decide, by decide, by decide, by decide, by decide⟩, ?_⟩, rfl⟩
  exact wit_InvariantKeptByEveryStep.1.spe

/-- HostWordJoinsItsChannel: a word on each channel, behind another, the engine busy and faulted. -/
theorem wit_HostWordJoinsItsChannel :
    (let s := st c1 { gpeIn .color 7 3 true with tok := [0x200000000#34] } (spe0 [] 0) [.gpeToken 0x112345678#34]
     s.cfg.ok = true ∧ s.agenda = .gpeToken 0x112345678#34 :: []) ∧
      (let s := st c1 (Gpe.atReset 0) { spe0 [] 0 with fault := true, tok := [0x200000000#34] } [.speToken 0x3FFFFFFFF#34]
       s.cfg.ok = true ∧ s.agenda = .speToken 0x3FFFFFFFF#34 :: []) := by decide

/-- R49: a word sent behind another is taken after it. -/
theorem test_host_word_order :
    nextIs (step (gpeOffered 0x112345678#34 [.gpeToken 0x200000000#34]))
      (fun t => t.gpe.tok == [0x112345678#34, 0x200000000#34]) = true := by decide

end Sys2Proof.Tests
end

namespace Sys2Proof

/-! ### The clauses of `CfgOK` (R10), each as the inequality or equation it checks -/

theorem Config.timingOrderOk_iff (c : Config) : c.timingOrderOk = true ↔ c.tShort < c.tLong := by
  simp [Config.timingOrderOk]

theorem Config.resetIntervalOk_iff (c : Config) : c.resetIntervalOk = true ↔ 80 ≤ c.tReset :=
  decide_eq_true_iff

theorem Config.delayWidthOk_iff (c : Config) :
    c.delayWidthOk = true ↔
      c.tShort < 2 ^ c.dw ∧ c.tLong < 2 ^ c.dw ∧ c.tLow < 2 ^ c.dw ∧ c.tSettle < 2 ^ c.dw ∧ c.tReset < 2 ^ c.dw ∧
        ∀ d, c.tLow1 = some d → d < 2 ^ c.dw := by
  simp [Config.delayWidthOk, Config.durations]

theorem Config.geometryOk_iff (c : Config) :
    c.geometryOk = true ↔ (c.ch = 3 ∨ c.ch = 4) ∧ 1 ≤ c.leds ∧ c.perLed = 4 * c.ch ∧ c.n = c.perLed * c.leds := by
  simp [Config.geometryOk, and_assoc]

theorem Config.gapSizeOk_iff (c : Config) : c.gapSizeOk = true ↔ 1 ≤ c.g := by
  simp [Config.gapSizeOk]

theorem Config.gapTimeOk_iff (c : Config) : c.gapTimeOk = true ↔ 300 * c.sclkHz ≤ 8 * c.g * 1000000 :=
  decide_eq_true_iff

/-- A table without a repeated entry gives different indices different patterns. -/
theorem Config.patternsOk_iff (c : Config) :
    c.patternsOk = true ↔ ∀ v u : BitVec 2, v ≠ u → Machine.pattern c v ≠ Machine.pattern c u := by
  have hentry (v : BitVec 2) : Machine.pattern c v = c.pt.toList[v.toNat]'(by simpa using v.isLt) := by
    simp [Machine.pattern]
  simp only [Config.patternsOk, decide_eq_true_eq]
  constructor
  · intro hnd v u hvu heq
    rw [hentry, hentry, hnd.getElem_inj_iff] at heq
    exact hvu (BitVec.eq_of_toNat_eq heq)
  · intro hne
    refine List.nodup_iff_injective_get.mpr fun i j hij => ?_
    have hi : i.val < 2 ^ 2 := by simpa using i.isLt
    have hj : j.val < 2 ^ 2 := by simpa using j.isLt
    by_contra hij'
    refine hne (BitVec.ofNatLT i hi) (BitVec.ofNatLT j hj) (fun h => hij' (Fin.ext ?_)) ?_
    · simpa using congrArg BitVec.toNat h
    · simpa [hentry] using hij

theorem Config.ok_iff (c : Config) :
    c.ok = true ↔ c.timingOrderOk = true ∧ c.resetIntervalOk = true ∧ c.delayWidthOk = true ∧ c.geometryOk = true ∧
      c.gapSizeOk = true ∧ c.patternsOk = true ∧ c.gapTimeOk = true := by
  simp only [Config.ok, Bool.and_eq_true, and_assoc]

end Sys2Proof

namespace Sys2Proof.Machine

/-! ### Each engine by itself

The machine is two machines side by side (R3). The definitions below are the model's operations seen from one engine: they
take that engine and the configuration and nothing else. `exec_eq_gpeOffer`, `exec_eq_speOffer`, `perform_eq` and
`step_eq_react` say that the model does what they do. -/

/-- What a token does to a GPE that takes it (R62). -/
def Gpe.effect (i : Instr) (g : Gpe) : Gpe :=
  match i with
  | .gpeColor r gr b w => { g.start .color with col := packColour r gr b w }
  | .gpeEnd => g.start .endTok
  | .gpeRsvd00 | .gpeRsvd11 => { g.start .ill with fault := true }
  | .speInit | .speColor _ _ _ _ | .speEnd | .speRsvd11 => g

/-- The GPE after a token is offered to it (R62, R63). -/
def Gpe.offer (i : Instr) (g : Gpe) : Gpe := if g.ready then g.taken.effect i else g

/-- The SPE once it has faulted on an illegal token (R102). -/
def Spe.illegal (p : Spe) : Spe := { p.start .ill with fault := true }

/-- What a token does to an SPE that takes it (R77), if every access is inside `FB`. -/
def Spe.effect (c : Config) (i : Instr) (p : Spe) : Option Spe :=
  match i with
  | .speInit =>
    if p.k = 0 then
      (memWrite c p.fb 0 (List.replicate c.n 0)).map fun m => { p with fb := m, init := true, k := 0 }
    else some p.illegal
  | .speColor r g b w =>
    if p.init then
      if p.k < c.leds then
        (writeChannels c p.k 0 (channels c r g b w) p.fb).map fun m => { p with fb := m, k := p.k + 1 }
      else some p
    else some p.illegal
  | .speEnd => some (if p.init then { p.start .endTok with st := .ok, code := 0 } else p.illegal)
  | .speRsvd11 => some p.illegal
  | .gpeColor _ _ _ _ | .gpeEnd | .gpeRsvd00 | .gpeRsvd11 => some p

/-- The SPE after a token is offered to it (R77, R78). -/
def Spe.offer (c : Config) (i : Instr) (p : Spe) : Option Spe := if p.ready then p.taken.effect c i else some p

/-- The GPE after its own move (R62). -/
def Gpe.move (c : Config) (g : Gpe) : Gpe :=
  if g.wait then g
  else if g.run = .idle then
    match g.tok with
    | [] => g
    | t :: _ => g.offer (decode .gpe t)
  else g.advance c

/-- The SPE after its own move (R77). -/
def Spe.move (c : Config) (p : Spe) : Option Spe :=
  if p.wait then some p
  else if p.run = .idle then
    match p.tok with
    | [] => some p
    | t :: _ => p.offer c (decode .spe t)
  else some (p.advance c)

/-- The GPE after an event. -/
def Gpe.react (c : Config) (m : Move) (g : Gpe) : Gpe :=
  match m with
  | .gpe => g.move c
  | .pinAnswer err => g.onPin c err
  | .delayDone => g.onDelay c
  | .gpeRspTaken => g.onTaken c
  | .gpeToken t => { g with tok := g.tok ++ [t] }
  | .rst col _ => { Gpe.atReset col with tok := g.tok, trace := g.trace, rsp := g.rsp }
  | .spe | .serAnswer _ | .speRspTaken | .speToken _ | .lateAnswer => g

/-- The SPE after an event. -/
def Spe.react (c : Config) (m : Move) (p : Spe) : Option Spe :=
  match m with
  | .spe => p.move c
  | .serAnswer a => some (p.onSerial c a)
  | .speRspTaken => some (p.onTaken c)
  | .speToken t => some { p with tok := p.tok ++ [t] }
  | .rst _ fill =>
    some { Spe.atReset (Memory.writeBytes [] 0 (fill.take c.n)) with tok := p.tok, trace := p.trace, rsp := p.rsp }
  | .gpe | .pinAnswer _ | .delayDone | .gpeRspTaken | .gpeToken _ | .lateAnswer => some p

/-- The machine's outcome when the SPE goes to a new state, or has made an access outside `FB`. -/
def State.withSpeOrFault (s : State) : Option Spe → Host.Outcome State Fault Refusal
  | some p => .next (s.withSpe p)
  | none => .fault .frameRange

theorem State.withSpeOrFault_eq_next {s t : State} {o : Option Spe} :
    s.withSpeOrFault o = .next t ↔ ∃ p, o = some p ∧ s.withSpe p = t := by
  cases o <;> simp [State.withSpeOrFault]

/-! ### The model is the two engines side by side -/

theorem gpeTake_eq {i : Instr} {eff : State → Host.Outcome State Fault Refusal}
    (heff : ∀ u, eff u = .next (u.withGpe (u.gpe.effect i))) (s : State) :
    gpeTake eff s = .next (s.withGpe (s.gpe.offer i)) := by
  unfold Gpe.offer
  rcases gpeTake_cases eff s with ⟨hr, h⟩ | ⟨hr, h⟩
  · rw [h, heff, if_pos hr]; rfl
  · rw [h, hr]; rfl

theorem speTake_eq {i : Instr} {eff : State → Host.Outcome State Fault Refusal}
    (heff : ∀ u, eff u = u.withSpeOrFault (u.spe.effect u.cfg i)) (s : State) :
    speTake eff s = s.withSpeOrFault (s.spe.offer s.cfg i) := by
  unfold Spe.offer
  rcases speTake_cases eff s with ⟨hr, h⟩ | ⟨hr, h⟩
  · rw [h, heff, if_pos hr, State.withSpe_spe, State.withSpe_cfg]
    cases s.spe.taken.effect s.cfg i <;> rfl
  · rw [h, hr]; rfl

/-- A token of the GPE is the GPE's own business: it always answers a next state, which differs in the GPE alone. -/
theorem exec_eq_gpeOffer {i : Instr} (hi : engineOf i = .gpe) (s : State) :
    exec i s = .next (s.withGpe (s.gpe.offer i)) := by
  cases i with
  | gpeColor r g b w => exact gpeTake_eq (i := .gpeColor r g b w) (fun _ => rfl) s
  | gpeEnd => exact gpeTake_eq (i := .gpeEnd) (fun _ => rfl) s
  | gpeRsvd00 => exact gpeTake_eq (i := .gpeRsvd00) (fun _ => rfl) s
  | gpeRsvd11 => exact gpeTake_eq (i := .gpeRsvd11) (fun _ => rfl) s
  | speInit | speColor | speEnd | speRsvd11 => cases hi

/-- A token of the SPE is the SPE's own business. -/
theorem exec_eq_speOffer {i : Instr} (hi : engineOf i = .spe) (s : State) :
    exec i s = s.withSpeOrFault (s.spe.offer s.cfg i) := by
  cases i with
  | speInit =>
    rw [exec, execSpeInit]
    refine speTake_eq (fun u => ?_) s
    dsimp only [Spe.effect]
    split
    · cases memWrite u.cfg u.spe.fb 0 (List.replicate u.cfg.n 0) <;> rfl
    · rfl
  | speColor r g b w =>
    rw [exec, execSpeColor]
    refine speTake_eq (fun u => ?_) s
    dsimp only [Spe.effect]
    split
    · split
      · cases writeChannels u.cfg u.spe.k 0 (channels u.cfg r g b w) u.spe.fb <;> rfl
      · rfl
    · rfl
  | speEnd =>
    rw [exec, execSpeEnd]
    refine speTake_eq (fun u => ?_) s
    dsimp only [Spe.effect]
    split <;> rfl
  | speRsvd11 => exact speTake_eq (i := .speRsvd11) (fun _ => rfl) s
  | gpeColor | gpeEnd | gpeRsvd00 | gpeRsvd11 => cases hi

theorem gpeMove_eq (s : State) : gpeMove s = .next (s.withGpe (s.gpe.move s.cfg)) := by
  unfold gpeMove Gpe.move
  split
  · rfl
  · split
    · cases ht : s.gpe.tok with
      | nil => rfl
      | cons t ts => exact exec_eq_gpeOffer (engineOf_decodeGpe t) s
    · rfl

theorem speMove_eq (s : State) : speMove s = s.withSpeOrFault (s.spe.move s.cfg) := by
  unfold speMove Spe.move
  split
  · rfl
  · split
    · cases ht : s.spe.tok with
      | nil => rfl
      | cons t ts => exact exec_eq_speOffer (engineOf_decodeSpe t) s
    · rfl

/-- R3, R112: an event acts on each engine by itself. -/
theorem perform_eq (m : Move) (s : State) :
    perform m s = (s.withGpe (s.gpe.react s.cfg m)).withSpeOrFault (s.spe.react s.cfg m) := by
  cases m with
  | gpe => exact gpeMove_eq s
  | spe => exact speMove_eq s
  | pinAnswer | delayDone | serAnswer | gpeRspTaken | speRspTaken | gpeToken | speToken | lateAnswer | rst => rfl

theorem step_eq_react {s : State} {m : Move} {ms : List Move} (hok : s.cfg.ok = true) (ha : s.agenda = m :: ms) :
    step s = ((s.withAgenda ms).withGpe (s.gpe.react s.cfg m)).withSpeOrFault (s.spe.react s.cfg m) := by
  rw [step, if_pos hok, nextEvent, ha]
  exact perform_eq m (s.withAgenda ms)

theorem step_of_no_event {s : State} (hok : s.cfg.ok = true) (ha : s.agenda = []) : step s = .next s := by
  rw [step, if_pos hok, nextEvent, ha]

/-- Everything a step can do to the engines: each reacts to the first event by itself. -/
theorem step_next {s t : State} {m : Move} {ms : List Move} (ha : s.agenda = m :: ms) (h : step s = .next t) :
    t.gpe = s.gpe.react s.cfg m ∧ s.spe.react s.cfg m = some t.spe := by
  rw [step_eq_react (step_cases h).1 ha, State.withSpeOrFault_eq_next] at h
  obtain ⟨p, hp, rfl⟩ := h
  exact ⟨rfl, hp⟩

theorem step_next_of_no_event {s t : State} (ha : s.agenda = []) (h : step s = .next t) : t = s := by
  rw [step_of_no_event (step_cases h).1 ha] at h
  cases h
  rfl

/-! ### Outstanding transactions, seen from one engine -/

/-- R6, R46: at most one transaction joins an engine's trace, and only when the engine waits for no answer, after which it
waits for one. -/
def AddsAtMostOne {ε : Type} (trace : List ε) (wait : Bool) (trace' : List ε) (wait' : Bool) : Prop :=
  trace' = trace ∨ (wait = false ∧ wait' = true ∧ ∃ e, trace' = trace ++ [e])

/-! Only an issue step writes the trace. -/

@[simp] theorem Gpe.onPin_trace (c : Config) (err : Bool) (g : Gpe) : (g.onPin c err).trace = g.trace := by
  rcases Gpe.onPin_cases c err g with ⟨v, -, -, h⟩ | h <;> exact (congrArg Gpe.trace h).trans rfl

@[simp] theorem Gpe.onDelay_trace (c : Config) (g : Gpe) : (g.onDelay c).trace = g.trace := by
  rcases Gpe.onDelay_cases c g with ⟨n, -, -, h⟩ | h <;> exact (congrArg Gpe.trace h).trans rfl

@[simp] theorem Gpe.onTaken_trace (c : Config) (g : Gpe) : (g.onTaken c).trace = g.trace := by
  rcases Gpe.onTaken_cases c g with ⟨st, code, -, -, h⟩ | h <;> exact (congrArg Gpe.trace h).trans rfl

@[simp] theorem Spe.onSerial_trace (c : Config) (a : SerAnswer) (p : Spe) : (p.onSerial c a).trace = p.trace := by
  rcases Spe.onSerial_cases c a p with ⟨-, -, -, -, h⟩ | ⟨_, -, -, -, -, h⟩ | ⟨_, -, -, -, -, h⟩ | h <;>
    exact (congrArg Spe.trace h).trans rfl

@[simp] theorem Spe.onTaken_trace (c : Config) (p : Spe) : (p.onTaken c).trace = p.trace := by
  rcases Spe.onTaken_cases c p with ⟨-, -, -, h⟩ | ⟨-, -, h⟩ | h <;> exact (congrArg Spe.trace h).trans rfl

@[simp] theorem Gpe.offer_trace (i : Instr) (g : Gpe) : (g.offer i).trace = g.trace := by
  unfold Gpe.offer
  split
  · cases i <;> rfl
  · rfl

theorem Spe.effect_trace {c : Config} {i : Instr} {p q : Spe} (h : p.effect c i = some q) : q.trace = p.trace := by
  cases i with
  | speInit =>
    simp only [Spe.effect] at h
    split at h
    · obtain ⟨m, -, rfl⟩ := Option.map_eq_some_iff.mp h
      rfl
    · cases h; rfl
  | speColor r g b w =>
    simp only [Spe.effect] at h
    split at h
    · split at h
      · obtain ⟨m, -, rfl⟩ := Option.map_eq_some_iff.mp h
        rfl
      · cases h; rfl
    · cases h; rfl
  | speEnd =>
    simp only [Spe.effect] at h
    split at h <;> cases h <;> rfl
  | speRsvd11 | gpeColor | gpeEnd | gpeRsvd00 | gpeRsvd11 => cases h; rfl

theorem Spe.offer_trace {c : Config} {i : Instr} {p q : Spe} (h : p.offer c i = some q) : q.trace = p.trace := by
  unfold Spe.offer at h
  split at h
  · exact (Spe.effect_trace h).trans p.taken_trace
  · cases h; rfl

theorem Gpe.move_trace (c : Config) (g : Gpe) :
    AddsAtMostOne g.trace g.wait (g.move c).trace (g.move c).wait := by
  unfold Gpe.move
  split
  · exact .inl rfl
  · rename_i hw
    split
    · split
      · exact .inl rfl
      · exact .inl (Gpe.offer_trace _ g)
    · rcases Gpe.advance_cases c g with ⟨e, -, h⟩ | ⟨-, h⟩ | ⟨-, h⟩
      · exact .inr ⟨by simpa using hw, by rw [h], e, by rw [h]⟩
      · exact .inl (by rw [h]; rfl)
      · exact .inl (by rw [h])

theorem Gpe.react_trace (c : Config) (m : Move) (g : Gpe) :
    AddsAtMostOne g.trace g.wait (g.react c m).trace (g.react c m).wait := by
  cases m with
  | gpe => exact Gpe.move_trace c g
  | pinAnswer err => exact .inl (Gpe.onPin_trace c err g)
  | delayDone => exact .inl (Gpe.onDelay_trace c g)
  | gpeRspTaken => exact .inl (Gpe.onTaken_trace c g)
  | gpeToken | rst | spe | serAnswer | speRspTaken | speToken | lateAnswer => exact .inl rfl

theorem Spe.move_trace {c : Config} {p q : Spe} (hq : p.move c = some q) :
    AddsAtMostOne p.trace p.wait q.trace q.wait := by
  unfold Spe.move at hq
  split at hq
  · cases hq; exact .inl rfl
  · rename_i hw
    split at hq
    · split at hq
      · cases hq; exact .inl rfl
      · exact .inl (Spe.offer_trace hq)
    · cases hq
      rcases Spe.advance_cases c p with ⟨e, -, h⟩ | ⟨-, h⟩
      · exact .inr ⟨by simpa using hw, by rw [h], e, by rw [h]⟩
      · exact .inl (by rw [h])

theorem Spe.react_trace {c : Config} {m : Move} {p q : Spe} (hq : p.react c m = some q) :
    AddsAtMostOne p.trace p.wait q.trace q.wait := by
  cases m with
  | spe => exact Spe.move_trace hq
  | serAnswer a => cases hq; exact .inl (Spe.onSerial_trace c a p)
  | speRspTaken => cases hq; exact .inl (Spe.onTaken_trace c p)
  | speToken | rst | gpe | pinAnswer | delayDone | gpeRspTaken | gpeToken | lateAnswer => cases hq; exact .inl rfl

/-- R62, R63: without an enabled step the GPE's own move changes nothing. -/
theorem Gpe.move_eq_self {c : Config} {g : Gpe}
    (h : g.wait = true ∨ (g.run = .idle ∧ (g.tok = [] ∨ g.fault = true)) ∨
      (g.run ≠ .idle ∧ (g.script c).length < g.pc.toNat)) : g.move c = g := by
  unfold Gpe.move
  split
  · rfl
  · rename_i hw
    obtain h | ⟨hr, hno⟩ | ⟨hr, hpast⟩ := h
    · exact absurd h hw
    · rw [if_pos hr]
      split
      · rfl
      · rename_i ht
        have hf : g.fault = true := hno.resolve_left (by simp [ht])
        exact if_neg (by simp [Gpe.ready, hf])
    · rw [if_neg hr]
      rcases Gpe.advance_cases c g with ⟨e, he, -⟩ | ⟨hlen, -⟩ | ⟨-, hself⟩
      · have hin : g.pc.toNat < (g.script c).length := (List.getElem?_eq_some_iff.mp he).1
        omega
      · omega
      · exact hself

/-- R77, R78: without an enabled step the SPE's own move changes nothing. -/
theorem Spe.move_eq_self {c : Config} {p : Spe}
    (h : p.wait = true ∨ (p.run = .idle ∧ (p.tok = [] ∨ p.fault = true))) : p.move c = some p := by
  unfold Spe.move
  split
  · rfl
  · rename_i hw
    obtain ⟨hr, hno⟩ := h.resolve_left hw
    rw [if_pos hr]
    split
    · rfl
    · rename_i ht
      have hf : p.fault = true := hno.resolve_left (by simp [ht])
      exact if_neg (by simp [Spe.ready, hf])

/-! ### No access outside `FB` (R40) -/

theorem writeChannels_isSome {c : Config} {k : Nat} (ds : List Byte) (ch : Nat) (m : Memory)
    (h : addr c k (ch + ds.length) 0 ≤ c.n) : ∃ m', writeChannels c k ch ds m = some m' := by
  induction ds generalizing ch m with
  | nil => exact ⟨m, rfl⟩
  | cons d ds ih =>
    have hfit : addr c k ch 0 + (expand c d).length ≤ c.n := by
      simp only [addr, List.length_cons, length_expand] at h ⊢
      omega
    rw [writeChannels, memWrite, if_pos hfit]
    exact ih (ch + 1) _ (by rwa [List.length_cons, Nat.add_comm ds.length, ← Nat.add_assoc] at h)

/-- Under `CfgOK` the SPE can always carry out a token. -/
theorem Spe.offer_isSome {c : Config} (hok : c.ok = true) (i : Instr) (p : Spe) : ∃ q, p.offer c i = some q := by
  unfold Spe.offer
  split
  · generalize p.taken = p
    cases i with
    | speInit =>
      dsimp only [Spe.effect]
      split
      · rw [memWrite, if_pos (by simp)]
        exact ⟨_, rfl⟩
      · exact ⟨_, rfl⟩
    | speColor r g b w =>
      dsimp only [Spe.effect]
      split
      · split
        · rename_i hk
          obtain ⟨m, hm⟩ := writeChannels_isSome (c := c) (k := p.k) (channels c r g b w) 0 p.fb (by
            rw [length_channels r g b w (Config.geometry_of_ok hok).1, Nat.zero_add]
            exact addr_slot_le hok hk)
          rw [hm]
          exact ⟨_, rfl⟩
        · exact ⟨_, rfl⟩
      · exact ⟨_, rfl⟩
    | speEnd | speRsvd11 | gpeColor | gpeEnd | gpeRsvd00 | gpeRsvd11 => exact ⟨_, rfl⟩
  · exact ⟨p, rfl⟩

theorem Spe.react_isSome {c : Config} (hok : c.ok = true) (m : Move) (p : Spe) : ∃ q, p.react c m = some q := by
  cases m with
  | spe =>
    dsimp only [Spe.react, Spe.move]
    split
    · exact ⟨_, rfl⟩
    · split
      · split
        · exact ⟨_, rfl⟩
        · exact Spe.offer_isSome hok _ p
      · exact ⟨_, rfl⟩
  | serAnswer | speRspTaken | speToken | rst | gpe | pinAnswer | delayDone | gpeRspTaken | gpeToken | lateAnswer =>
    exact ⟨_, rfl⟩

theorem step_refused {s : State} (h : s.cfg.ok = false) : step s = .refused .configIllFormed := by
  rw [step, h]; rfl

/-! ### The frames of the SPE's tokens -/

/-- Apart from `FB`, a token of the SPE changes the SPE's run registers only, and `S_ST` and `S_CODE` in an `END` only. -/
theorem execSpe_keeps {i : Instr} (hi : engineOf i = .spe) {s t : State} (h : exec i s = .next t) :
    t.cfg = s.cfg ∧ t.gpe = s.gpe ∧ t.agenda = s.agenda ∧
    t.spe.wait = s.spe.wait ∧ t.spe.trace = s.spe.trace ∧ t.spe.rsp = s.spe.rsp ∧
    (i ≠ .speEnd → t.spe.st = s.spe.st ∧ t.spe.code = s.spe.code) ∧
    (s.spe.init = true → t.spe.init = true) ∧
    ((∀ r g b w, i ≠ .speColor r g b w) → i ≠ .speInit → t.spe.k = s.spe.k) := by
  rcases execSpe_cases hi h with ⟨-, rfl⟩ | ⟨-, ⟨rfl, -⟩ | ⟨rfl, -, rfl⟩ | ⟨r, g, b, w, m, rfl, -, -, -, rfl⟩ |
    ⟨r, g, b, w, rfl, -, -, rfl⟩ | ⟨rfl, -, rfl⟩⟩
  all_goals simp

/-- `END` and the reserved kind leave `FB` alone (R41). -/
theorem execSpe_fb {i : Instr} (hi : i = .speEnd ∨ i = .speRsvd11) {s t : State} (h : exec i s = .next t) :
    t.spe.fb = s.spe.fb := by
  have hspe : engineOf i = .spe := by rcases hi with rfl | rfl <;> rfl
  rcases execSpe_cases hspe h with ⟨-, rfl⟩ | ⟨-, ⟨rfl, -⟩ | ⟨rfl, -, rfl⟩ | ⟨r, g, b, w, m, rfl, -, -, -, rfl⟩ |
    ⟨r, g, b, w, rfl, -, -, rfl⟩ | ⟨rfl, -, rfl⟩⟩
  all_goals simp at hi ⊢

/-- `INIT` leaves every byte beyond the `N` of `FB` alone. -/
theorem execSpeInit_fb_beyond {s t : State} (hwf : s.spe.fb.wf = true) (h : exec .speInit s = .next t) {a : Nat}
    (ha : s.cfg.n ≤ a) : t.spe.fb.read a = s.spe.fb.read a := by
  rcases execSpe_cases rfl h with ⟨-, rfl⟩ | ⟨-, ⟨rfl, -⟩ | ⟨-, -, rfl⟩ | ⟨r, g, b, w, m, hi, -⟩ |
    ⟨r, g, b, w, hi, -⟩ | ⟨hi, -⟩⟩
  · rfl
  · rfl
  · exact Memory.read_writeBytes_outside 0 _ a hwf (.inr (by simpa using ha))
  all_goals cases hi

/-- The slot after slot `k` begins where the `CH` channels of slot `k` end (R33). -/
theorem addr_next_slot {c : Config} (hok : c.ok = true) (k : Nat) : addr c (k + 1) 0 0 = addr c k c.ch 0 := by
  obtain ⟨-, -, hper, -⟩ := Config.geometry_of_ok hok
  simp only [addr, Nat.add_mul]
  omega

/-- `COLOR` leaves every byte outside slot `S_K` alone. -/
theorem execSpeColor_fb_outside {r g b w : Byte} {s t : State} (hok : s.cfg.ok = true) (hwf : s.spe.fb.wf = true)
    (h : exec (.speColor r g b w) s = .next t) {a : Nat}
    (ha : a < addr s.cfg s.spe.k 0 0 ∨ addr s.cfg (s.spe.k + 1) 0 0 ≤ a) : t.spe.fb.read a = s.spe.fb.read a := by
  rcases execSpe_cases rfl h with ⟨-, rfl⟩ | ⟨-, ⟨rfl, -⟩ | ⟨hi, -⟩ | ⟨r', g', b', w', m, -, -, hk, hm, rfl⟩ |
    ⟨_, _, _, _, -, -, -, rfl⟩ | ⟨hi, -⟩⟩
  · rfl
  · rfl
  · cases hi
  · have hlen : 0 + (channels s.cfg r' g' b' w').length = s.cfg.ch := by
      rw [Nat.zero_add, length_channels r' g' b' w' (Config.geometry_of_ok hok).1]
    obtain ⟨m', hm', -, hout, -⟩ := writeChannels_spec s.cfg s.spe.k (channels s.cfg r' g' b' w') 0 s.spe.fb hwf
      (by rw [hlen]; exact addr_slot_le hok hk)
    obtain rfl : m' = m := Option.some_inj.mp (hm'.symm.trans hm)
    exact hout a (by rwa [hlen, ← addr_next_slot hok])
  · rfl
  · cases hi

/-! ### The obligations of the scope family -/

/-- Settles O47: a step is the reaction of each engine by itself to the event (`step_next`), and an engine reacts to the
other's events with itself. -/
theorem enginesDoNotInteract : Obligations.EnginesDoNotInteract := by
  refine ⟨fun s s' t t' hcfg hag h h' => ?_, fun s t m ms ha h => ?_⟩
  · cases ha : s.agenda with
    | nil =>
      obtain rfl := step_next_of_no_event ha h
      obtain rfl := step_next_of_no_event (hag.symm.trans ha) h'
      exact ⟨id, id⟩
    | cons m ms =>
      obtain ⟨hg, hp⟩ := step_next ha h
      obtain ⟨hg', hp'⟩ := step_next (hag.symm.trans ha) h'
      refine ⟨fun heq => ?_, fun heq => Option.some_inj.mp ?_⟩
      · rw [hg, hg', hcfg, heq]
      · rw [← hp, ← hp', hcfg, heq]
  · obtain ⟨hg, hp⟩ := step_next ha h
    constructor
    · rintro (rfl | ⟨_, rfl⟩ | rfl | rfl | ⟨_, rfl⟩) <;> exact (Option.some_inj.mp hp).symm
    · rintro (rfl | ⟨_, rfl⟩ | rfl | ⟨_, rfl⟩) <;> exact hg

/-- Settles O4, clause by clause. -/
theorem cfgOkIsItsClauses : Obligations.CfgOkIsItsClauses := by
  refine ⟨fun s => step_refused, fun c => ?_⟩
  rw [c.ok_iff, c.timingOrderOk_iff, c.resetIntervalOk_iff, c.delayWidthOk_iff, c.geometryOk_iff, c.gapSizeOk_iff,
    c.patternsOk_iff, c.gapTimeOk_iff]

/-- Settles O5: the GPE's reaction to an event is total, and the SPE's is under `CfgOK` (`Spe.react_isSome`). -/
theorem onlyIllFormedConfigurationStops : Obligations.OnlyIllFormedConfigurationStops := by
  refine fun s => ⟨step_refused, fun hok => ?_⟩
  cases ha : s.agenda with
  | nil => exact ⟨s, step_of_no_event hok ha⟩
  | cons m ms =>
    obtain ⟨p, hp⟩ := Spe.react_isSome hok m s.spe
    exact ⟨_, by rw [step_eq_react hok ha, hp]; rfl⟩

/-- Settles O15, by the cases of a token that is offered to the GPE. -/
theorem gpeTokensFrame : Obligations.GpeTokensFrame := by
  intro i s t hi h
  rcases execGpe_cases hi h with ⟨-, rfl⟩ | ⟨-, ⟨r, g, b, w, rfl, rfl⟩ | ⟨-, rfl⟩ | ⟨hrsvd, rfl⟩⟩
  · simp
  · exact ⟨rfl, rfl, rfl, rfl, rfl, rfl, rfl, fun _ => rfl, fun hne => absurd rfl (hne r g b w), fun _ _ => rfl⟩
  · simp
  · simpa using fun h00 h11 => absurd hrsvd (not_or.mpr ⟨h00, h11⟩)

/-- Settles O33: the registers by `execSpe_keeps`, the bytes of `FB` by a lemma for each kind of token. -/
theorem speTokensFrame : Obligations.SpeTokensFrame := by
  intro i s t hi hok hwf h
  obtain ⟨hcfg, hgpe, hag, hwait, htrace, hrsp, hst, hinit, hk⟩ := execSpe_keeps hi h
  refine ⟨hcfg, hgpe, hag, hwait, htrace, hrsp, hst, hinit, hk, fun hend a => by rw [execSpe_fb hend h], ?_, ?_⟩
  · rintro rfl a
    exact execSpeInit_fb_beyond hwf h
  · rintro ⟨r, g, b, w, rfl⟩ a
    exact execSpeColor_fb_outside hok hwf h

/-- Settles O48: only an issue step writes a trace, and an engine with no enabled step reacts to its own move with itself. -/
theorem oneTransactionOutstanding : Obligations.OneTransactionOutstanding := by
  refine ⟨fun s t h => ?_, fun s ms hok => ⟨fun ha hno => ?_, fun ha hno => ?_, step_of_no_event hok⟩⟩
  · cases ha : s.agenda with
    | nil =>
      obtain rfl := step_next_of_no_event ha h
      exact ⟨.inl rfl, .inl rfl⟩
    | cons m ms =>
      obtain ⟨hg, hp⟩ := step_next ha h
      rw [hg]
      exact ⟨Gpe.react_trace s.cfg m s.gpe, Spe.react_trace hp⟩
  · rw [step_eq_react hok ha, Gpe.react, Gpe.move_eq_self hno]
    rfl
  · rw [step_eq_react hok ha, Spe.react, Spe.move_eq_self hno]
    rfl

end Sys2Proof.Machine

namespace Sys2Proof.Machine

/-! ### The commanded level along a script (R16, R30) -/

theorem levelAfter_append (v : Bool) (es fs : List GEvent) :
    levelAfter v (es ++ fs) = levelAfter (levelAfter v es) fs := by
  induction es generalizing v with
  | nil => rfl
  | cons e es ih => cases e <;> exact ih _

/-- Every bit's waveform leaves the level low (R66). -/
@[simp] theorem levelAfter_bitScript (c : Config) (v b : Bool) : levelAfter v (bitScript c b) = false := by
  cases b with
  | false => rfl
  | true => cases h : c.tLow1 <;> simp [bitScript, h, levelAfter]

@[simp] theorem levelAfter_byteScript (c : Config) (v : Bool) (d : Byte) : levelAfter v (byteScript c d) = false := by
  simp [byteScript, levelAfter_append]

@[simp] theorem levelAfter_colorScript (c : Config) (v : Bool) (col : BitVec 32) :
    levelAfter v (colorScript c col) = false := by
  simp [colorScript, levelAfter_append]

/-- Whatever the GPE executes, its script leaves the level low (R30). -/
theorem Gpe.levelAfter_script (c : Config) (g : Gpe) : levelAfter false (g.script c) = false := by
  unfold Gpe.script
  split
  · rfl
  · exact levelAfter_colorScript c false g.col
  · rfl
  · rfl

/-! ### The invariant of the GPE -/

theorem Gpe.script_idle {c : Config} {g : Gpe} (h : g.run = .idle) : g.script c = [] := by
  simp [Gpe.script, h]

/-- R30: an idle GPE has commanded the line low. -/
theorem GpeInv.pinq_of_idle {c : Config} {g : Gpe} (h : GpeInv c g) (hr : g.run = .idle) : g.pinq = false := by
  simpa [Gpe.script_idle hr, levelAfter] using h.levelFollows

theorem GpeInv.wait_of_idle {c : Config} {g : Gpe} (h : GpeInv c g) (hr : g.run = .idle) : g.wait = false := by
  have hin := h.waitsInScript
  rw [Gpe.script_idle hr] at hin
  simpa using hin

/-- The reset values satisfy the invariant, whatever `G_COL` and the ports hold. -/
theorem GpeInv.atReset (c : Config) (col : BitVec 32) (tok : List Token) (trace : List GEvent) (rsp : List Nat) :
    GpeInv c { Gpe.atReset col with tok := tok, trace := trace, rsp := rsp } where
  pcInScript := Nat.zero_le _
  waitsInScript := nofun
  levelFollows := rfl
  illFaulted := nofun
  faultedStops := nofun

/-- At the start of a script, the line low and nothing outstanding, only the fault clauses are left to show. -/
theorem GpeInv.of_start {c : Config} {g : Gpe} (hpc : g.pc = 0) (hwait : g.wait = false) (hlow : g.pinq = false)
    (hill : g.run = .ill → g.fault = true) (hstop : g.fault = true → g.run = .idle ∨ g.run = .ill) : GpeInv c g where
  pcInScript := by simp [hpc]
  waitsInScript := by simp [hwait]
  levelFollows := by simp [hpc, hlow, levelAfter]
  illFaulted := hill
  faultedStops := hstop

/-- An idle unfaulted GPE that takes a token keeps the invariant. -/
theorem GpeInv.offer {c : Config} {g : Gpe} (h : GpeInv c g) (i : Instr) : GpeInv c (g.offer i) := by
  unfold Gpe.offer
  split
  · rename_i hready
    obtain ⟨hr, hf⟩ := g.ready_iff.mp hready
    have hwait := h.wait_of_idle hr
    have hlow := h.pinq_of_idle hr
    cases i with
    | gpeColor r gr b w => exact .of_start rfl hwait hlow nofun (by simp [Gpe.effect, hf])
    | gpeEnd => exact .of_start rfl hwait hlow nofun (by simp [Gpe.effect, hf])
    | gpeRsvd00 | gpeRsvd11 => exact .of_start rfl hwait hlow (fun _ => rfl) (fun _ => .inr rfl)
    | speInit | speColor | speEnd | speRsvd11 => exact { h with }
  · exact h

/-- The answer to the element at `G_PC` keeps the invariant: the level moves by that element. -/
theorem GpeInv.answered {c : Config} {g : Gpe} (h : GpeInv c g) {e : GEvent} (he : g.element c = some e)
    (rsp : List Nat) : GpeInv c { g.answered with pinq := levelAfter g.pinq [e], rsp := rsp } := by
  obtain ⟨hlt, hget⟩ := List.getElem?_eq_some_iff.mp he
  have hpc : (g.pc + 1).toNat = g.pc.toNat + 1 := Gpe.toNat_pc_succ hlt
  refine { h with pcInScript := ?_, waitsInScript := nofun, levelFollows := ?_ }
  · change (g.pc + 1).toNat ≤ (g.script c).length
    omega
  · change levelAfter g.pinq [e] = levelAfter false ((g.script c).take (g.pc + 1).toNat)
    rw [hpc, List.take_add_one, levelAfter_append, ← h.levelFollows]
    exact congrArg (fun o => levelAfter g.pinq o.toList) he.symm

/-- R62: issuing an element and retiring a token keep the invariant. -/
theorem GpeInv.advance {c : Config} {g : Gpe} (h : GpeInv c g) (hwait : g.wait = false) : GpeInv c (g.advance c) := by
  rcases g.advance_cases c with ⟨e, he, heq⟩ | ⟨hlen, heq⟩ | ⟨-, heq⟩ <;> rw [heq]
  · exact { h with waitsInScript := fun _ => (List.getElem?_eq_some_iff.mp he).1 }
  · have hlow : g.pinq = false := by
      rw [h.levelFollows, hlen, List.take_length, g.levelAfter_script]
    exact .of_start rfl hwait hlow nofun fun _ => .inl rfl
  · exact h

theorem GpeInv.move {c : Config} {g : Gpe} (h : GpeInv c g) : GpeInv c (g.move c) := by
  unfold Gpe.move
  split
  · exact h
  · rename_i hwait
    split
    · split
      · exact h
      · exact h.offer _
    · exact h.advance (by simpa using hwait)

/-- Every event keeps the GPE's invariant. -/
theorem GpeInv.react {c : Config} {g : Gpe} (h : GpeInv c g) (m : Move) : GpeInv c (g.react c m) := by
  cases m with
  | gpe => exact h.move
  | pinAnswer err =>
    rcases g.onPin_cases c err with ⟨v, -, he, heq⟩ | heq <;> rw [Gpe.react, heq]
    exacts [h.answered he g.rsp, h]
  | delayDone =>
    rcases g.onDelay_cases c with ⟨n, -, he, heq⟩ | heq <;> rw [Gpe.react, heq]
    exacts [h.answered he g.rsp, h]
  | gpeRspTaken =>
    rcases g.onTaken_cases c with ⟨st, code, -, he, heq⟩ | heq <;> rw [Gpe.react, heq]
    exacts [h.answered he _, h]
  | gpeToken t => exact { h with }
  | rst col fill => exact .atReset c col g.tok g.trace g.rsp
  | spe | serAnswer | speRspTaken | speToken | lateAnswer => exact h

/-! ### Writes stay inside `FB` (R40) -/

/-- A successful `MemWrite` leaves every byte beyond the `N` of `FB` alone. -/
theorem memWrite_read_beyond {c : Config} {m m' : Memory} {a b : Nat} {vs : List Byte}
    (h : memWrite c m a vs = some m') (hm : m.wf = true) (hb : c.n ≤ b) : m'.read b = m.read b := by
  rcases memWrite_cases c m a vs with ⟨hfit, hw⟩ | ⟨-, hw⟩ <;> rw [hw] at h <;> cases h
  exact Memory.read_writeBytes_outside a vs b hm (.inr (by omega))

/-- A written slice leaves every byte beyond the `N` of `FB` alone. -/
theorem writeChannels_read_beyond {c : Config} {k ch b : Nat} {ds : List Byte} {m m' : Memory}
    (h : writeChannels c k ch ds m = some m') (hm : m.wf = true) (hb : c.n ≤ b) : m'.read b = m.read b := by
  induction ds generalizing ch m with
  | nil => cases h; rfl
  | cons d ds ih =>
    obtain ⟨m₁, hw, hrest⟩ := Option.bind_eq_some_iff.mp h
    rw [ih hrest (memWrite_wf hw hm), memWrite_read_beyond hw hm hb]

/-- What hardware reset leaves in `FB`: the bytes drawn, of which `N` are used. -/
theorem Memory.read_fill (n : Nat) (fill : List Byte) (a : Nat) :
    (Memory.writeBytes [] 0 (fill.take n)).read a = if a < n then (fill[a]?).getD 0 else Memory.unlisted := by
  rcases Nat.lt_or_ge a (fill.take n).length with hin | hout
  · have hread := Memory.read_writeBytes_inside 0 (fill.take n) a Memory.wf_nil hin
    have hlen : a < n ∧ a < fill.length := by simpa using hin
    rw [Nat.zero_add] at hread
    simp [hread, hlen]
  · rw [Memory.read_writeBytes_outside 0 (fill.take n) a Memory.wf_nil (.inr (by omega))]
    have hlen : a < n → fill.length ≤ a := by simp at hout; omega
    split
    · rename_i han
      simp [hlen han, Memory.read, Memory.unlisted]
    · rfl

theorem Memory.wf_fill (n : Nat) (fill : List Byte) : (Memory.writeBytes [] 0 (fill.take n)).wf = true :=
  Memory.wf_writeBytes 0 _ Memory.wf_nil

/-! ### The invariant of the SPE -/

theorem SpeInv.wait_of_idle {c : Config} {p : Spe} (h : SpeInv c p) (hr : p.run = .idle) : p.wait = false := by
  simpa [hr] using h.waitsInRun

/-- The reset values satisfy the invariant with any canonical frame buffer of `N` bytes, whatever the ports hold. -/
theorem SpeInv.atReset {c : Config} {m : Memory} (hwf : m.wf = true) (hread : ∀ a, c.n ≤ a → m.read a = Memory.unlisted)
    (tok : List Token) (trace : List SEvent) (rsp : List Nat) :
    SpeInv c { Spe.atReset m with tok := tok, trace := trace, rsp := rsp } where
  fbCanonical := hwf
  fbInRange := hread
  kInRange := Nat.zero_le _
  kBeforeInit _ := rfl
  pcInEnd _ := rfl
  endAfterInit := nofun
  illFaulted := nofun
  faultedStops := nofun
  waitsInRun := nofun
  stNotIllegal := nofun
  codeFits := Nat.two_pow_pos c.ew
  okCode _ := rfl
  noFailureYet := nofun

/-- R102: an illegal token keeps the invariant. -/
theorem SpeInv.illegal {c : Config} {p : Spe} (h : SpeInv c p) : SpeInv c p.illegal :=
  { h with
    pcInEnd := fun _ => rfl
    endAfterInit := nofun
    illFaulted := fun _ => rfl
    faultedStops := fun _ => .inr rfl
    waitsInRun := nofun
    noFailureYet := nofun }

/-- After `INIT` a frame buffer written inside its `N` bytes and a slot in `0 .. L` keep the invariant (R21, R23). -/
theorem SpeInv.written {c : Config} {p : Spe} (h : SpeInv c p) {m : Memory} {k : Nat} (hwf : m.wf = true)
    (hread : ∀ a, c.n ≤ a → m.read a = p.fb.read a) (hk : k ≤ c.leds) :
    SpeInv c { p with fb := m, init := true, k := k } :=
  { h with
    fbCanonical := hwf
    fbInRange := fun a ha => (hread a ha).trans (h.fbInRange a ha)
    kInRange := hk
    kBeforeInit := nofun
    endAfterInit := fun _ => rfl }

/-- R77: the start of an `END` by an unfaulted SPE after `INIT` keeps the invariant. -/
theorem SpeInv.startEnd {c : Config} {p : Spe} (h : SpeInv c p) (hinit : p.init = true) (hf : p.fault = false) :
    SpeInv c { p.start .endTok with st := .ok, code := 0 } :=
  { h with
    pcInEnd := fun _ => rfl
    endAfterInit := fun _ => hinit
    illFaulted := nofun
    faultedStops := fun hfault => absurd (hf.symm.trans hfault) (by decide)
    waitsInRun := fun _ => nofun
    stNotIllegal := nofun
    codeFits := Nat.two_pow_pos c.ew
    okCode := fun _ => rfl
    noFailureYet := fun _ _ => rfl }

/-- The effect of a token on an unfaulted SPE keeps the invariant. -/
theorem SpeInv.effect {c : Config} {i : Instr} {p q : Spe} (h : SpeInv c p) (hf : p.fault = false)
    (hq : p.effect c i = some q) : SpeInv c q := by
  cases i with
  | speInit =>
    simp only [Spe.effect] at hq
    split at hq
    · obtain ⟨m, hm, rfl⟩ := Option.map_eq_some_iff.mp hq
      exact h.written (memWrite_wf hm h.fbCanonical) (fun _ => memWrite_read_beyond hm h.fbCanonical) (Nat.zero_le _)
    · cases hq; exact h.illegal
  | speColor r g b w =>
    simp only [Spe.effect] at hq
    split at hq
    · rename_i hinit
      split at hq
      · rename_i hk
        obtain ⟨m, hm, rfl⟩ := Option.map_eq_some_iff.mp hq
        have hwritten := h.written (writeChannels_wf hm h.fbCanonical)
          (fun _ => writeChannels_read_beyond hm h.fbCanonical) hk
        rwa [← hinit] at hwritten
      · cases hq; exact h
    · cases hq; exact h.illegal
  | speEnd =>
    simp only [Spe.effect] at hq
    split at hq <;> cases hq
    · rename_i hinit
      exact h.startEnd hinit hf
    · exact h.illegal
  | speRsvd11 => cases hq; exact h.illegal
  | gpeColor | gpeEnd | gpeRsvd00 | gpeRsvd11 => cases hq; exact h

theorem SpeInv.offer {c : Config} {i : Instr} {p q : Spe} (h : SpeInv c p) (hq : p.offer c i = some q) :
    SpeInv c q := by
  unfold Spe.offer at hq
  split at hq
  · rename_i hready
    have htaken : SpeInv c p.taken := { h with }
    exact htaken.effect (p.ready_iff.mp hready).2 hq
  · cases hq; exact h

/-- R77: issuing an element keeps the invariant. -/
theorem SpeInv.advance {c : Config} {p : Spe} (h : SpeInv c p) (hr : p.run ≠ .idle) : SpeInv c (p.advance c) := by
  rcases p.advance_cases c with ⟨e, -, heq⟩ | ⟨hidle, -⟩
  · rw [heq]
    exact { h with waitsInRun := fun _ => hr }
  · exact absurd hidle hr

theorem SpeInv.move {c : Config} {p q : Spe} (h : SpeInv c p) (hq : p.move c = some q) : SpeInv c q := by
  unfold Spe.move at hq
  split at hq
  · cases hq; exact h
  · split at hq
    · split at hq
      · cases hq; exact h
      · exact h.offer hq
    · rename_i hr
      cases hq; exact h.advance hr

/-- R86, R87, R88: a success inside an `END` keeps the invariant. -/
theorem SpeInv.answered {c : Config} {p : Spe} (h : SpeInv c p) (hr : p.run = .endTok) (hpc : p.pc ≠ 3) :
    SpeInv c p.answered :=
  { h with
    pcInEnd := fun hne => absurd hr hne
    waitsInRun := nofun
    noFailureYet := fun _ _ => h.noFailureYet hr hpc }

/-- R89: a failure of a transfer or of the flush inside an `END` keeps the invariant. -/
theorem SpeInv.raiseSerial {c : Config} {p : Spe} (h : SpeInv c p) (hr : p.run = .endTok) {st : Status}
    (hst : st = .writeErr ∨ st = .flushErr) (code : Nat) : SpeInv c (p.raiseSerial c st code) :=
  { h with
    pcInEnd := fun hne => absurd hr hne
    waitsInRun := nofun
    stNotIllegal := by rcases hst with rfl | rfl <;> nofun
    codeFits := Nat.mod_lt code (Nat.two_pow_pos c.ew)
    okCode := by rcases hst with rfl | rfl <;> nofun
    noFailureYet := fun _ hne => absurd rfl hne }

/-- R77, R90: the end of a token keeps the invariant, with `S_K` kept or put at 0. -/
theorem SpeInv.finish {c : Config} {p : Spe} (h : SpeInv c p) {k : Nat} (hk : k = p.k ∨ k = 0) (rsp : List Nat) :
    SpeInv c { p with run := .idle, pc := 0, k := k, wait := false, rsp := rsp } :=
  { h with
    kInRange := by rcases hk with rfl | rfl; exacts [h.kInRange, Nat.zero_le _]
    kBeforeInit := by rcases hk with rfl | rfl; exacts [h.kBeforeInit, fun _ => rfl]
    pcInEnd := fun _ => rfl
    endAfterInit := nofun
    illFaulted := nofun
    faultedStops := fun _ => .inl rfl
    waitsInRun := nofun
    noFailureYet := nofun }

/-- Every event keeps the SPE's invariant. -/
theorem SpeInv.react {c : Config} {m : Move} {p q : Spe} (h : SpeInv c p) (hq : p.react c m = some q) :
    SpeInv c q := by
  cases m with
  | spe => exact h.move hq
  | serAnswer a =>
    cases hq
    rcases p.onSerial_cases c a with ⟨-, hr, hpc, -, heq⟩ | ⟨code, -, hr, -, -, heq⟩ | ⟨code, -, hr, -, -, heq⟩ | heq <;>
      rw [heq]
    · exact h.answered hr hpc
    · exact h.raiseSerial hr (.inl rfl) code
    · exact h.raiseSerial hr (.inr rfl) code
    · exact h
  | speRspTaken =>
    cases hq
    rcases p.onTaken_cases c with ⟨-, -, -, heq⟩ | ⟨-, -, heq⟩ | heq <;> rw [heq]
    · exact h.finish (.inr rfl) _
    · exact h.finish (.inl rfl) _
    · exact h
  | speToken t => cases hq; exact { h with }
  | rst col fill =>
    cases hq
    refine .atReset (Memory.wf_fill c.n fill) (fun a ha => ?_) p.tok p.trace p.rsp
    rw [Memory.read_fill, if_neg (by omega)]
  | gpe | pinAnswer | delayDone | gpeRspTaken | gpeToken | lateAnswer => cases hq; exact h

/-- The first state after hardware reset satisfies the invariant under every well-formed configuration. -/
theorem State.inv_resetWith {c : Config} (hok : c.ok = true) : (State.resetWith c).Inv :=
  ⟨hok, .atReset c 0 [] [] [], .atReset Memory.wf_nil (fun _ _ => rfl) [] [] []⟩

/-! ### The configuration is read-only (R15) -/

theorem step_cfg {s t : State} (h : step s = .next t) : t.cfg = s.cfg := by
  obtain ⟨hok, ⟨-, rfl⟩ | ⟨m, ms, ha, -⟩⟩ := step_cases h
  · rfl
  · rw [step_eq_react hok ha, State.withSpeOrFault_eq_next] at h
    obtain ⟨p, -, rfl⟩ := h
    rfl

theorem exec_cfg {i : Instr} {s t : State} (h : exec i s = .next t) : t.cfg = s.cfg := by
  cases hi : engineOf i with
  | gpe =>
    rw [exec_eq_gpeOffer hi] at h
    cases h; rfl
  | spe => exact (execSpe_keeps hi h).1

/-! ### Events that answer nothing (R114) -/

theorem Gpe.onPin_eq_self {c : Config} {g : Gpe} (err : Bool)
    (h : g.wait = false ∨ ∀ v, g.element c ≠ some (.pinSet v)) : g.onPin c err = g := by
  rcases g.onPin_cases c err with ⟨v, hw, he, -⟩ | heq
  · exact absurd he (h.resolve_left (by simp [hw]) v)
  · exact heq

theorem Gpe.onDelay_eq_self {c : Config} {g : Gpe} (h : g.wait = false ∨ ∀ n, g.element c ≠ some (.delay n)) :
    g.onDelay c = g := by
  rcases g.onDelay_cases c with ⟨n, hw, he, -⟩ | heq
  · exact absurd he (h.resolve_left (by simp [hw]) n)
  · exact heq

theorem Gpe.onTaken_eq_self {c : Config} {g : Gpe}
    (h : g.wait = false ∨ ∀ st code, g.element c ≠ some (.rsp st code)) : g.onTaken c = g := by
  rcases g.onTaken_cases c with ⟨st, code, hw, he, -⟩ | heq
  · exact absurd he (h.resolve_left (by simp [hw]) st code)
  · exact heq

theorem Spe.onSerial_eq_self {c : Config} {p : Spe} (a : SerAnswer)
    (h : p.wait = false ∨ p.run ≠ .endTok ∨ p.pc = 3) : p.onSerial c a = p := by
  rcases p.onSerial_cases c a with ⟨hw, hr, hpc, -⟩ | ⟨code, hw, hr, hpc, -⟩ | ⟨code, hw, hr, hpc, -⟩ | heq
  · exact absurd ((h.resolve_left (by simp [hw])).resolve_left (not_not.mpr hr)) hpc
  · rcases hpc with hpc | hpc <;> simp [hw, hr, hpc] at h
  · simp [hw, hr, hpc] at h
  · exact heq

theorem Spe.onTaken_eq_self {c : Config} {p : Spe}
    (h : p.wait = false ∨ p.run = .idle ∨ (p.run = .endTok ∧ p.pc ≠ 3)) : p.onTaken c = p := by
  rcases p.onTaken_cases c with ⟨hw, hr, hpc, -⟩ | ⟨hw, hr, -⟩ | heq
  · simp [hw, hr, hpc] at h
  · simp [hw, hr] at h
  · exact heq

/-- An event to which neither engine reacts only leaves the agenda. -/
theorem step_of_no_reaction {s : State} {m : Move} {ms : List Move} (hok : s.cfg.ok = true) (ha : s.agenda = m :: ms)
    (hg : s.gpe.react s.cfg m = s.gpe) (hp : s.spe.react s.cfg m = some s.spe) : step s = .next (s.withAgenda ms) := by
  rw [step_eq_react hok ha, hg, hp]
  rfl

/-! ### Who writes `FB` -/

theorem decodeSpe_of_not_init_color {t : Token} (h00 : tokenKind t ≠ 0b00#2) (h01 : tokenKind t ≠ 0b01#2) :
    decodeSpe t = .speEnd ∨ decodeSpe t = .speRsvd11 := by
  rw [decodeSpe, if_neg h00, if_neg h01]
  split
  · exact .inl rfl
  · exact .inr rfl

theorem Spe.effect_fb {c : Config} {i : Instr} {p q : Spe} (hi : i = .speEnd ∨ i = .speRsvd11)
    (hq : p.effect c i = some q) : q.fb = p.fb := by
  rcases hi with rfl | rfl
  · simp only [Spe.effect] at hq
    split at hq <;> cases hq <;> rfl
  · cases hq; rfl

/-- R41: the SPE's own move writes `FB` only when it takes an `INIT` or a `COLOR`. -/
theorem Spe.move_fb {c : Config} {p q : Spe} (hq : p.move c = some q) (hne : q.fb ≠ p.fb) :
    ∃ w ws, p.run = .idle ∧ p.fault = false ∧ p.tok = w :: ws ∧ (tokenKind w = 0b00#2 ∨ tokenKind w = 0b01#2) := by
  unfold Spe.move at hq
  split at hq
  · cases hq; exact absurd rfl hne
  · split at hq
    · split at hq
      · cases hq; exact absurd rfl hne
      · rename_i w ws ht
        unfold Spe.offer at hq
        split at hq
        · rename_i hready
          obtain ⟨hr, hf⟩ := p.ready_iff.mp hready
          refine ⟨w, ws, hr, hf, ht, ?_⟩
          by_contra hkind
          obtain ⟨h00, h01⟩ := not_or.mp hkind
          exact hne (Spe.effect_fb (p := p.taken) (decodeSpe_of_not_init_color h00 h01) hq)
        · cases hq; exact absurd rfl hne
    · cases hq
      rcases p.advance_cases c with ⟨e, -, heq⟩ | ⟨-, heq⟩ <;> exact absurd (congrArg Spe.fb heq) hne

@[simp] theorem Spe.onSerial_fb (c : Config) (a : SerAnswer) (p : Spe) : (p.onSerial c a).fb = p.fb := by
  rcases p.onSerial_cases c a with ⟨-, -, -, -, h⟩ | ⟨_, -, -, -, -, h⟩ | ⟨_, -, -, -, -, h⟩ | h <;>
    exact (congrArg Spe.fb h).trans rfl

@[simp] theorem Spe.onTaken_fb (c : Config) (p : Spe) : (p.onTaken c).fb = p.fb := by
  rcases p.onTaken_cases c with ⟨-, -, -, h⟩ | ⟨-, -, h⟩ | h <;> exact (congrArg Spe.fb h).trans rfl

/-! ### The bits of a colour's script -/

/-- The script of a byte of a word is that of the word's bits there, most significant first. -/
theorem byteScript_extractLsb' (c : Config) (col : BitVec 32) (i : Nat) :
    byteScript c (col.extractLsb' i 8) =
      ([7, 6, 5, 4, 3, 2, 1, 0].map (i + ·)).flatMap fun k => bitScript c (col.getLsbD k) := by
  simp [byteScript, BitVec.getLsbD_extractLsb']

/-! ### A transaction of the SPE's `END` answered `ok` -/

/-- Before its response step an `END` issues a transfer or the flush (R85). -/
theorem Spe.element_before_response {c : Config} {p : Spe} (hr : p.run = .endTok) (hpc : p.pc ≠ 3) :
    (∃ bs, p.element c = some (.serWrite bs)) ∨ p.element c = some .serFlush := by
  have hcases : ∀ v : BitVec 2, v ≠ 3 → v = 0 ∨ v = 1 ∨ v = 2 := by decide
  rcases hcases p.pc hpc with h | h | h
  · exact .inl ⟨frame c p.fb, by simp [Spe.element, hr, h]⟩
  · exact .inl ⟨zeroBuffer c, by simp [Spe.element, hr, h]⟩
  · exact .inr (by simp [Spe.element, hr, h])

theorem Spe.onSerial_ok {c : Config} {p : Spe} (hw : p.wait = true) (hr : p.run = .endTok) (hpc : p.pc ≠ 3) :
    p.onSerial c .ok = p.answered := by
  rcases p.element_before_response (c := c) hr hpc with ⟨bs, he⟩ | he <;> simp [Spe.onSerial, hw, he]

/-! ### The obligations of the state family -/

/-- Settles O45: each engine's reaction to an event keeps its own invariant (`GpeInv.react`, `SpeInv.react`), and a step is
these two reactions. -/
theorem invariantKeptByEveryStep : Obligations.InvariantKeptByEveryStep := by
  intro s t hinv h
  cases ha : s.agenda with
  | nil => exact step_next_of_no_event ha h ▸ hinv
  | cons m ms =>
    obtain ⟨hg, hp⟩ := step_next ha h
    have hcfg := step_cfg h
    exact ⟨hcfg ▸ hinv.cfgOk, by rw [hcfg, hg]; exact hinv.gpe.react m, by rw [hcfg]; exact hinv.spe.react hp⟩

/-- Settles O6, by `step_cfg` and `exec_cfg`. -/
theorem configurationConstant : Obligations.ConfigurationConstant :=
  fun _ _ => ⟨step_cfg, fun _ => exec_cfg⟩

/-- Settles O8: the reset state by `Memory.read_fill`, and each answer that fits nothing by the lemma that its engine does not
react to it. -/
theorem hardwareResetFromAnyState : Obligations.HardwareResetFromAnyState := by
  refine ⟨fun s ms col fill hok ha => ?_, fun s ms hok => ⟨fun ha => ?_, fun err ha hno => ?_, fun ha hno => ?_,
    fun ha hno => ?_, fun a ha hno => ?_, fun ha hno => ?_⟩⟩
  · refine ⟨_, Memory.wf_fill s.cfg.n fill, fun a hlt => ?_, step_eq_react hok ha⟩
    rw [Memory.read_fill, if_pos hlt]
  · exact step_of_no_reaction hok ha rfl rfl
  · exact step_of_no_reaction hok ha (Gpe.onPin_eq_self err hno) rfl
  · exact step_of_no_reaction hok ha (Gpe.onDelay_eq_self hno) rfl
  · exact step_of_no_reaction hok ha (Gpe.onTaken_eq_self hno) rfl
  · exact step_of_no_reaction hok ha rfl (congrArg some (Spe.onSerial_eq_self a hno))
  · exact step_of_no_reaction hok ha rfl (congrArg some (Spe.onTaken_eq_self hno))

/-- Settles O37: of the SPE's reactions only those to hardware reset and to its own move can write `FB`, and its own move does
so in the take of an `INIT` or a `COLOR` alone (`Spe.move_fb`). -/
theorem onlyInitAndColourWriteTheBuffer : Obligations.OnlyInitAndColourWriteTheBuffer := by
  intro s t h hne
  cases ha : s.agenda with
  | nil => exact absurd (step_next_of_no_event ha h ▸ rfl) hne
  | cons m ms =>
    obtain ⟨-, hp⟩ := step_next ha h
    cases m with
    | spe =>
      obtain ⟨w, ws, hr, hf, ht, hkind⟩ := Spe.move_fb hp hne
      exact .inr ⟨w, ws, ms, rfl, hr, hf, ht, hkind⟩
    | rst col fill => exact .inl ⟨col, fill, ms, rfl⟩
    | serAnswer a => exact absurd (Option.some_inj.mp hp ▸ s.spe.onSerial_fb s.cfg a) hne
    | speRspTaken => exact absurd (Option.some_inj.mp hp ▸ s.spe.onTaken_fb s.cfg) hne
    | speToken | gpe | pinAnswer | delayDone | gpeRspTaken | gpeToken | lateAnswer =>
      exact absurd (Option.some_inj.mp hp ▸ rfl) hne

/-- Settles O7: the reset state is written out. -/
theorem resetValues : Obligations.ResetValues :=
  ⟨fun _ => ⟨rfl, rfl, rfl, rfl, rfl, rfl, rfl, rfl, rfl, rfl, rfl, rfl⟩, rfl⟩

/-- Settles O17: bytes 3 to 0, each from its bit 7 down to its bit 0, are the bits 31 to 0 of the word. -/
theorem colourIsItsBitsMsbFirst : Obligations.ColourIsItsBitsMsbFirst := by
  intro c col
  have hbits : [24, 16, 8, 0].flatMap (fun i => [7, 6, 5, 4, 3, 2, 1, 0].map (i + ·)) =
      (List.range 32).map (31 - ·) := by decide
  simp only [colorScript, byteScript_extractLsb']
  rw [← List.flatMap_assoc, hbits, List.flatMap_map]

/-- Settles O39, by `Spe.onSerial_ok`. -/
theorem serialSuccessAdvances : Obligations.SerialSuccessAdvances := by
  intro s ms hok ha hw hr hpc
  rw [step_eq_react hok ha, Spe.react, Spe.onSerial_ok hw hr hpc]
  rfl

/-- Settles O46: the reset values of both engines meet their invariants, and an idle GPE has an empty script. -/
theorem invariantAtReset : Obligations.InvariantAtReset :=
  ⟨fun _ => State.inv_resetWith, State.inv_resetWith (c := Config.cfgRef 1) (by decide),
    fun _ hinv => hinv.gpe.pinq_of_idle⟩

end Sys2Proof.Machine

namespace Sys2Proof.Machine

/-! ### The address map and its inverse (R33, R40) -/

/-- The offset of a pattern byte in its slot is below `PER_LED`. -/
theorem slotOffset_lt_perLed {c : Config} (hok : c.ok = true) {ch p : Nat} (hch : ch < c.ch) (hp : p < 4) :
    ch * 4 + p < c.perLed := by
  obtain ⟨-, -, hper, -⟩ := Config.geometry_of_ok hok
  omega

/-- The slot of an address is its quotient by `PER_LED`. -/
theorem addr_div_perLed {c : Config} (hok : c.ok = true) (k : Nat) {ch p : Nat} (hch : ch < c.ch) (hp : p < 4) :
    addr c k ch p / c.perLed = k := by
  have hoff := slotOffset_lt_perLed hok hch hp
  rw [addr, Nat.add_assoc]
  exact Nat.div_eq_of_lt_le (Nat.le_add_right _ _) (by rw [Nat.succ_mul]; omega)

/-- The offset of an address in its slot is its remainder by `PER_LED`. -/
theorem addr_mod_perLed {c : Config} (hok : c.ok = true) (k : Nat) {ch p : Nat} (hch : ch < c.ch) (hp : p < 4) :
    addr c k ch p % c.perLed = ch * 4 + p := by
  rw [addr, Nat.add_assoc, Nat.mul_add_mod_self_right, Nat.mod_eq_of_lt (slotOffset_lt_perLed hok hch hp)]

/-- Every pattern byte of a slot below `L` lies inside the frame buffer. -/
theorem addr_lt_n {c : Config} (hok : c.ok = true) {k ch p : Nat} (hk : k < c.leds) (hch : ch < c.ch) (hp : p < 4) :
    addr c k ch p < c.n := by
  have hslot := addr_slot_le hok hk
  simp only [addr] at hslot ⊢
  omega

/-- Slot, channel and pair are determined by the address. -/
theorem addr_inj {c : Config} (hok : c.ok = true) {k ch p k' ch' p' : Nat} (hch : ch < c.ch) (hp : p < 4)
    (hch' : ch' < c.ch) (hp' : p' < 4) (h : addr c k ch p = addr c k' ch' p') : k = k' ∧ ch = ch' ∧ p = p' := by
  have hslot : k = k' := by rw [← addr_div_perLed hok k hch hp, h, addr_div_perLed hok k' hch' hp']
  have hoff : ch * 4 + p = ch' * 4 + p' := by
    rw [← addr_mod_perLed hok k hch hp, h, addr_mod_perLed hok k' hch' hp']
  omega

/-- Every byte of the frame buffer has a slot, a channel and a pair: the quotient by `PER_LED`, then the quotient and the
remainder of the offset by 4. -/
theorem exists_addr_eq {c : Config} (hok : c.ok = true) {a : Nat} (ha : a < c.n) :
    ∃ k ch p, k < c.leds ∧ ch < c.ch ∧ p < 4 ∧ addr c k ch p = a := by
  obtain ⟨hch, -, hper, hn⟩ := Config.geometry_of_ok hok
  have hpos : 0 < c.perLed := by omega
  have hoff : a % c.perLed < c.perLed := Nat.mod_lt a hpos
  have hsplit : a / c.perLed * c.perLed + a % c.perLed = a := Nat.div_add_mod' a c.perLed
  refine ⟨a / c.perLed, a % c.perLed / 4, a % c.perLed % 4, Nat.div_lt_of_lt_mul (hn ▸ ha), by omega,
    Nat.mod_lt _ (by decide), ?_⟩
  rw [addr]
  omega

/-! ### The expansion (R36, R37, R38) -/

/-- Under `CfgOK` (f) the pattern table is injective. -/
theorem pattern_injective {c : Config} (hok : c.ok = true) : Function.Injective (pattern c) := by
  obtain ⟨-, -, -, -, -, hpt, -⟩ := c.ok_iff.mp hok
  intro v u heq
  by_contra hvu
  exact c.patternsOk_iff.mp hpt v u hvu heq

/-- Bit `j` of pair `p` is bit `6 - 2p + j` of the byte. -/
theorem getLsbD_pair (d : Byte) (p : Nat) {j : Nat} (hj : j < 2) :
    (pair d p).getLsbD j = d.getLsbD (6 - 2 * p + j) := by
  simp [pair, hj]

/-- A byte is determined by its four pairs: its bit `i` is bit `i % 2` of pair `3 - i / 2`. -/
theorem eq_of_pair_eq {d d' : Byte} (h : ∀ p < 4, pair d p = pair d' p) : d = d' := by
  refine BitVec.eq_of_getLsbD_eq fun i hi => ?_
  have hbit : 6 - 2 * (3 - i / 2) + i % 2 = i := by omega
  have hj : i % 2 < 2 := Nat.mod_lt i (by decide)
  have hpair := congrArg (·.getLsbD (i % 2)) (h (3 - i / 2) (by omega))
  simpa only [getLsbD_pair _ _ hj, hbit] using hpair

/-- Different bytes have different expansions. -/
theorem expand_injective {c : Config} (hok : c.ok = true) : Function.Injective (expand c) := by
  intro d d' h
  refine eq_of_pair_eq fun p hp => pattern_injective hok (Option.some_inj.mp ?_)
  rw [← getElem?_expand c d hp, h, getElem?_expand c d' hp]

/-- The bits of a byte, most significant first, are those of its pairs 0 to 3, the high bit of each pair first. -/
theorem byteBits_eq_flatMap_pair (d : Byte) :
    byteBits d = [0, 1, 2, 3].flatMap fun p => [(pair d p).getLsbD 1, (pair d p).getLsbD 0] := by
  simp only [getLsbD_pair _ _ Nat.zero_lt_two, getLsbD_pair _ _ Nat.one_lt_two]
  rfl

/-- An entry of the default table is the group of its index's high bit, then that of the low bit. -/
theorem byteBits_pattern {c : Config} (hpt : c.pt = #v[0x88, 0x8E, 0xE8, 0xEE]) (v : BitVec 2) :
    byteBits (pattern c v) = nib (v.getLsbD 1) ++ nib (v.getLsbD 0) := by
  have htable : ∀ u : BitVec 2, byteBits (pattern (Config.cfgRef 1) u) = nib (u.getLsbD 1) ++ nib (u.getLsbD 0) := by
    decide
  have hsame : pattern c v = pattern (Config.cfgRef 1) v := by simp only [pattern, hpt, Config.cfgRef]
  rw [hsame, htable]

/-- With the default table a byte goes out as the groups of its bits, most significant first. -/
theorem wireBits_expand {c : Config} (hpt : c.pt = #v[0x88, 0x8E, 0xE8, 0xEE]) (d : Byte) :
    wireBits (expand c d) = (byteBits d).flatMap nib := by
  calc wireBits (expand c d)
      = [0, 1, 2, 3].flatMap (fun p => byteBits (pattern c (pair d p))) := by rw [wireBits, expand, List.flatMap_map]
    _ = [0, 1, 2, 3].flatMap (fun p => nib ((pair d p).getLsbD 1) ++ nib ((pair d p).getLsbD 0)) := by
        simp only [byteBits_pattern hpt]
    _ = (byteBits d).flatMap nib := by
        rw [byteBits_eq_flatMap_pair, List.flatMap_assoc]
        simp only [List.flatMap_cons, List.flatMap_nil, List.append_nil]

/-- Settles O34: the address is inverted by division by `PER_LED` and by 4 (`addr_inj`, `exists_addr_eq`). -/
theorem addressMapIsABijection : Obligations.AddressMapIsABijection :=
  fun _ hok => ⟨fun _ _ _ => rfl, fun _ _ _ => addr_lt_n hok, fun _ _ _ _ _ _ => addr_inj hok,
    fun _ => exists_addr_eq hok⟩

/-- Settles O35: the order is the definition's, and injectivity is that of the table and of the split into pairs. -/
theorem expansionIsMsbPairFirstAndInjective : Obligations.ExpansionIsMsbPairFirstAndInjective :=
  fun _ _ => ⟨rfl, fun hok _ h => expand_injective hok h⟩

/-- Settles O36: the table entry by entry (`byteBits_pattern`), then the byte pair by pair (`wireBits_expand`). -/
theorem defaultTableShapesBits : Obligations.DefaultTableShapesBits :=
  fun _ hpt => ⟨rfl, rfl, byteBits_pattern hpt, wireBits_expand hpt⟩

end Sys2Proof.Machine

namespace Sys2Proof

/-! ### The decoder by the kind of the word (R52) -/

/-- The four kinds of a word. -/
theorem kind_cases (k : BitVec 2) : k = 0b00#2 ∨ k = 0b01#2 ∨ k = 0b10#2 ∨ k = 0b11#2 := by
  revert k
  decide

section
variable {t : Token}

theorem decodeGpe_of_kind00 (h : tokenKind t = 0b00#2) : decodeGpe t = .gpeRsvd00 := by simp [decodeGpe, h]

theorem decodeGpe_of_kind01 (h : tokenKind t = 0b01#2) :
    decodeGpe t = .gpeColor (tokenRed t) (tokenGreen t) (tokenBlue t) (tokenWhite t) := by simp [decodeGpe, h]

theorem decodeGpe_of_kind10 (h : tokenKind t = 0b10#2) : decodeGpe t = .gpeEnd := by simp [decodeGpe, h]

theorem decodeGpe_of_kind11 (h : tokenKind t = 0b11#2) : decodeGpe t = .gpeRsvd11 := by simp [decodeGpe, h]

theorem decodeSpe_of_kind00 (h : tokenKind t = 0b00#2) : decodeSpe t = .speInit := by simp [decodeSpe, h]

theorem decodeSpe_of_kind01 (h : tokenKind t = 0b01#2) :
    decodeSpe t = .speColor (tokenRed t) (tokenGreen t) (tokenBlue t) (tokenWhite t) := by simp [decodeSpe, h]

theorem decodeSpe_of_kind10 (h : tokenKind t = 0b10#2) : decodeSpe t = .speEnd := by simp [decodeSpe, h]

theorem decodeSpe_of_kind11 (h : tokenKind t = 0b11#2) : decodeSpe t = .speRsvd11 := by simp [decodeSpe, h]

end

/-! ### A word and its fields (R51, R53) -/

/-- A bit of a field is the word's bit at the same place. -/
theorem getLsbD_field (t : Token) {start len i : Nat} (hlo : start ≤ i) (hhi : i < start + len) :
    (t.extractLsb' start len).getLsbD (i - start) = t.getLsbD i := by
  simp [Nat.add_sub_cancel' hlo, show i - start < len by omega]

/-- A word is packed from its own fields. -/
theorem packToken_fields (t : Token) :
    packToken (tokenKind t) (tokenRed t) (tokenGreen t) (tokenBlue t) (tokenWhite t) = t := by
  refine BitVec.eq_of_getLsbD_eq fun i hi => ?_
  rw [getLsbD_packToken]
  split_ifs with h8 h16 h24 h32
  · exact getLsbD_field t (Nat.zero_le i) (by omega)
  all_goals exact getLsbD_field t (by omega) (by omega)

/-- The mask of R52 keeps a word's kind and zeroes its payload. -/
theorem and_kindMask (t : Token) : t &&& 0x300000000#34 = packToken (tokenKind t) 0 0 0 0 := by
  have hmask : 0x300000000#34 = packToken 0b11#2 0 0 0 0 := by decide
  refine BitVec.eq_of_getLsbD_eq fun i hi => ?_
  rw [hmask, BitVec.getLsbD_and, getLsbD_packToken, getLsbD_packToken]
  split_ifs with h8 h16 h24 h32
  · simp
  · simp
  · simp
  · simp
  · have hkind : (0b11#2).getLsbD (i - 32) = true := by
      obtain rfl | rfl : i = 32 ∨ i = 33 := by omega
      · rfl
      · rfl
    rw [hkind, Bool.and_true]
    exact (getLsbD_field t (by omega) (by omega)).symm

/-- A row of R52's mask and match table compares the kind. -/
theorem and_kindMask_eq_iff (t : Token) (kind : BitVec 2) :
    t &&& 0x300000000#34 = packToken kind 0 0 0 0 ↔ tokenKind t = kind := by
  rw [and_kindMask]
  exact ⟨fun h => by rw [← tokenKind_packToken (tokenKind t) 0 0 0 0, h, tokenKind_packToken], fun h => by rw [h]⟩

/-! ### Decoding what the encoder writes, and encoding what a word decodes to -/

theorem decode_encode (i : Instr) : decode (engineOf i) (encode i) = i := by
  cases i with
  | gpeColor r g b w =>
    refine (decodeGpe_of_kind01 (Laws.TableRow.gpeColor r g b w)).trans ?_
    rw [encode, tokenRed_packToken, tokenGreen_packToken, tokenBlue_packToken, tokenWhite_packToken]
  | gpeEnd => exact decodeGpe_of_kind10 Laws.TableRow.gpeEnd
  | gpeRsvd00 => exact decodeGpe_of_kind00 Laws.TableRow.gpeRsvd00
  | gpeRsvd11 => exact decodeGpe_of_kind11 Laws.TableRow.gpeRsvd11
  | speInit => exact decodeSpe_of_kind00 Laws.TableRow.speInit
  | speColor r g b w =>
    refine (decodeSpe_of_kind01 (Laws.TableRow.speColor r g b w)).trans ?_
    rw [encode, tokenRed_packToken, tokenGreen_packToken, tokenBlue_packToken, tokenWhite_packToken]
  | speEnd => exact decodeSpe_of_kind10 Laws.TableRow.speEnd
  | speRsvd11 => exact decodeSpe_of_kind11 Laws.TableRow.speRsvd11

theorem engineOf_decode (e : Engine) (t : Token) : engineOf (decode e t) = e := by
  cases e with
  | gpe => exact Machine.engineOf_decodeGpe t
  | spe => exact Machine.engineOf_decodeSpe t

/-- The word of a colour is kept whole. -/
theorem encode_decode_of_kind01 (e : Engine) {t : Token} (h : tokenKind t = 0b01#2) : encode (decode e t) = t := by
  have hfields := packToken_fields t
  rw [h] at hfields
  cases e with
  | gpe => rw [decode, decodeGpe_of_kind01 h, encode, hfields]
  | spe => rw [decode, decodeSpe_of_kind01 h, encode, hfields]

/-- Any other word is kept with its payload zeroed. -/
theorem encode_decode_of_not_kind01 (e : Engine) {t : Token} (h : tokenKind t ≠ 0b01#2) :
    encode (decode e t) = packToken (tokenKind t) 0 0 0 0 := by
  rcases kind_cases (tokenKind t) with hk | hk | hk | hk
  · cases e with
    | gpe => rw [decode, decodeGpe_of_kind00 hk, encode, hk]
    | spe => rw [decode, decodeSpe_of_kind00 hk, encode, hk]
  · exact absurd hk h
  · cases e with
    | gpe => rw [decode, decodeGpe_of_kind10 hk, encode, hk]
    | spe => rw [decode, decodeSpe_of_kind10 hk, encode, hk]
  · cases e with
    | gpe => rw [decode, decodeGpe_of_kind11 hk, encode, hk]
    | spe => rw [decode, decodeSpe_of_kind11 hk, encode, hk]

end Sys2Proof

namespace Sys2Proof.Machine

/-! ### The elements of the GPE's scripts (R62) -/

theorem delay_mem_bitScript {c : Config} {b : Bool} {n : Nat} (h : .delay n ∈ bitScript c b) : n ∈ c.durations := by
  cases b with
  | false =>
    obtain rfl | rfl | rfl : n = c.tSettle ∨ n = c.tShort ∨ n = c.tLow := by simpa [bitScript] using h
    all_goals simp [Config.durations]
  | true =>
    obtain rfl | rfl | hlow : n = c.tSettle ∨ n = c.tLong ∨ c.tLow1 = some n := by simpa [bitScript] using h
    · simp [Config.durations]
    · simp [Config.durations]
    · simp [Config.durations, hlow]

theorem rsp_notMem_bitScript (c : Config) (b : Bool) (st : Status) (code : Nat) : .rsp st code ∉ bitScript c b := by
  cases b <;> simp [bitScript]

/-- Every element of a colour's script belongs to the waveform of a bit. -/
theorem mem_colorScript {c : Config} {col : BitVec 32} {e : GEvent} (h : e ∈ colorScript c col) :
    ∃ b, e ∈ bitScript c b := by
  obtain ⟨_, -, hbyte⟩ := List.mem_flatMap.mp h
  obtain ⟨_, -, hbit⟩ := List.mem_flatMap.mp hbyte
  exact ⟨_, hbit⟩

/-- R58, R75: the GPE requests no delay but its timing constants. -/
theorem Gpe.delay_mem_script {c : Config} {g : Gpe} {n : Nat} (h : .delay n ∈ g.script c) : n ∈ c.durations := by
  unfold Gpe.script at h
  split at h
  · simp at h
  · obtain ⟨_, hbit⟩ := mem_colorScript h
    exact delay_mem_bitScript hbit
  · obtain rfl : n = c.tReset := by simpa [endScript] using h
    simp [Config.durations]
  · simp [illegalScript] at h

/-- R56, R62: the GPE answers `OK` or `ILLEGAL`, with code 0. -/
theorem Gpe.rsp_mem_script {c : Config} {g : Gpe} {st : Status} {code : Nat} (h : .rsp st code ∈ g.script c) :
    (st = .ok ∨ st = .illegal) ∧ code = 0 := by
  unfold Gpe.script at h
  split at h
  · simp at h
  · obtain ⟨b, hbit⟩ := mem_colorScript h
    exact absurd hbit (rsp_notMem_bitScript c b st code)
  · obtain ⟨rfl, rfl⟩ : st = .ok ∧ code = 0 := by simpa [endScript] using h
    exact ⟨.inl rfl, rfl⟩
  · obtain ⟨rfl, rfl⟩ : st = .illegal ∧ code = 0 := by simpa [illegalScript] using h
    exact ⟨.inr rfl, rfl⟩

/-- R10 (c): under `CfgOK` a timing constant fits a delay request's `DW` bits. -/
theorem lt_of_mem_durations {c : Config} (hok : c.ok = true) {n : Nat} (h : n ∈ c.durations) : n < 2 ^ c.dw := by
  obtain ⟨-, -, hdw, -⟩ := c.ok_iff.mp hok
  exact of_decide_eq_true (List.all_eq_true.mp hdw n h)

/-! ### The response word (R56) -/

theorem Status.bits_injective : Function.Injective Status.bits := by
  intro st st'
  cases st <;> cases st' <;> decide

section
variable {c : Config} {code : Nat} (hcode : code < 2 ^ c.ew)
include hcode

/-- The status stands above the `EW` bits of the code. -/
theorem responseWord_div (st : Status) : responseWord c st code / 2 ^ c.ew = st.bits.toNat := by
  rw [responseWord, Nat.add_comm, Nat.add_mul_div_right _ _ (Nat.two_pow_pos _), Nat.div_eq_of_lt hcode, Nat.zero_add]

/-- The code stands in the low `EW` bits. -/
theorem responseWord_mod (st : Status) : responseWord c st code % 2 ^ c.ew = code := by
  rw [responseWord, Nat.mul_add_mod_self_right, Nat.mod_eq_of_lt hcode]

theorem responseWord_lt (st : Status) : responseWord c st code < 2 ^ (c.ew + 2) := by
  rw [Nat.pow_add, Nat.mul_comm]
  refine Nat.lt_mul_of_div_lt ?_ (Nat.two_pow_pos _)
  rw [responseWord_div hcode st]
  exact st.bits.isLt

theorem responseWord_inj {code' : Nat} (hcode' : code' < 2 ^ c.ew) {st st' : Status}
    (h : responseWord c st code = responseWord c st' code') : st = st' ∧ code = code' := by
  constructor
  · refine Status.bits_injective (BitVec.eq_of_toNat_eq ?_)
    rw [← responseWord_div hcode st, h, responseWord_div hcode' st']
  · rw [← responseWord_mod hcode st, h, responseWord_mod hcode' st']

end

/-! ### A token taken by an engine that is ready -/

theorem exec_of_gpe_ready {i : Instr} (hi : engineOf i = .gpe) {s : State} (hr : s.gpe.run = .idle)
    (hf : s.gpe.fault = false) : exec i s = .next (s.withGpe (s.gpe.taken.effect i)) := by
  rw [exec_eq_gpeOffer hi, Gpe.offer, if_pos (s.gpe.ready_iff.mpr ⟨hr, hf⟩)]

theorem exec_of_spe_ready {i : Instr} (hi : engineOf i = .spe) {s : State} (hr : s.spe.run = .idle)
    (hf : s.spe.fault = false) : exec i s = s.withSpeOrFault (s.spe.taken.effect s.cfg i) := by
  rw [exec_eq_speOffer hi, Spe.offer, if_pos (s.spe.ready_iff.mpr ⟨hr, hf⟩)]

/-- R102: an SPE that takes a token whose effect is the fault. -/
theorem exec_of_spe_illegal {i : Instr} (hi : engineOf i = .spe) {s : State} (hr : s.spe.run = .idle)
    (hf : s.spe.fault = false) (heff : s.spe.taken.effect s.cfg i = some s.spe.taken.illegal) :
    exec i s = .next (s.withSpe { s.spe with tok := s.spe.tok.tail, fault := true, run := .ill, pc := 0 }) := by
  rw [exec_of_spe_ready hi hr hf, heff]
  rfl

/-! ### The obligations of the encoding family -/

/-- Settles O1: the encoder's word has the instruction's fields (`decode_encode`), and a word is packed from its own fields
(`packToken_fields`), of which the encoder writes those that are operands. -/
theorem tokenRoundTrip : Obligations.TokenRoundTrip := by
  refine ⟨decode_encode, fun e t => ⟨engineOf_decode e t, ?_⟩⟩
  split
  case isTrue h => exact encode_decode_of_kind01 e h
  case isFalse h => exact encode_decode_of_not_kind01 e h

/-- Settles O2: each row's match compares the kind (`and_kindMask_eq_iff`), of which there are four. -/
theorem everyWordDecodesByKind : Obligations.EveryWordDecodesByKind := by
  intro t
  have hkind := fun kind => and_kindMask_eq_iff t kind
  refine ⟨fun h => ?_, fun h => ?_, fun h => ?_, fun h => ?_, ?_⟩
  · have hk := (hkind 0b00#2).mp h
    exact ⟨decodeGpe_of_kind00 hk, decodeSpe_of_kind00 hk⟩
  · have hk := (hkind 0b01#2).mp h
    exact ⟨decodeGpe_of_kind01 hk, decodeSpe_of_kind01 hk⟩
  · have hk := (hkind 0b10#2).mp h
    exact ⟨decodeGpe_of_kind10 hk, decodeSpe_of_kind10 hk⟩
  · have hk := (hkind 0b11#2).mp h
    exact ⟨decodeGpe_of_kind11 hk, decodeSpe_of_kind11 hk⟩
  · exact (kind_cases (tokenKind t)).imp (hkind _).mpr (.imp (hkind _).mpr (.imp (hkind _).mpr (hkind _).mpr))

/-- Settles O20, element by element of the script. -/
theorem gpeScriptElements : Obligations.GpeScriptElements :=
  fun _ _ hok =>
    ⟨fun _ h => ⟨Gpe.delay_mem_script h, lt_of_mem_durations hok (Gpe.delay_mem_script h)⟩,
      fun _ _ => Gpe.rsp_mem_script⟩

/-- Settles O44: the status is the word's quotient by `2 ^ EW`, the code its remainder. -/
theorem responseWordIsDecodable : Obligations.ResponseWordIsDecodable := by
  refine ⟨fun _ st _ _ _ hcode hcode' => ⟨responseWord_lt hcode st, responseWord_inj hcode hcode'⟩, fun c hew => ?_⟩
  simp only [responseWord, hew]
  decide

/-- Settles O3, by evaluating the decoder on each word. -/
theorem specWordsDecode : Obligations.SpecWordsDecode := by
  unfold Obligations.SpecWordsDecode
  decide

/-- Settles O14: the effect of either reserved kind is the fault. -/
theorem gpeReservedTokensFault : Obligations.GpeReservedTokensFault := by
  intro i s hi hr hf
  rcases hi with rfl | rfl
  · exact ⟨_, exec_of_gpe_ready rfl hr hf, rfl, rfl⟩
  · exact ⟨_, exec_of_gpe_ready rfl hr hf, rfl, rfl⟩

/-- Settles O32: in each of the four cases the effect of the token is the fault. -/
theorem speIllegalTokensFault : Obligations.SpeIllegalTokensFault := by
  intro i s hr hf hi
  rcases hi with rfl | ⟨rfl, hk⟩ | ⟨rfl, hinit⟩ | ⟨⟨r, g, b, w, rfl⟩, hinit⟩
  · exact exec_of_spe_illegal rfl hr hf rfl
  · exact exec_of_spe_illegal rfl hr hf (if_neg hk)
  · exact exec_of_spe_illegal rfl hr hf (by simp [Spe.effect, hinit])
  · exact exec_of_spe_illegal rfl hr hf (by simp [Spe.effect, hinit])

/-- Settles O50: the engine whose channel it is reacts to the word, and the other does not. -/
theorem hostWordJoinsItsChannel : Obligations.HostWordJoinsItsChannel :=
  fun _ _ _ hok => ⟨step_eq_react hok, step_eq_react hok⟩

end Sys2Proof.Machine

namespace Sys2Proof.Machine

/-! ### What a word does to a GPE that takes it (R62) -/

/-- `G_RUN` once the GPE has taken a word (R62). -/
def tokenRun (t : Token) : GRun :=
  if tokenKind t = 0b01#2 then .color else if tokenKind t = 0b10#2 then .endTok else .ill

/-- The packed colour of a word is its payload. -/
theorem packColour_fields (t : Token) :
    packColour (tokenRed t) (tokenGreen t) (tokenBlue t) (tokenWhite t) = t.extractLsb' 0 32 := by
  refine BitVec.eq_of_getLsbD_eq fun i hi => ?_
  rw [getLsbD_packColour, BitVec.getLsbD_extractLsb', decide_eq_true hi, Bool.true_and, Nat.zero_add]
  split_ifs with h8 h16 h24
  · exact getLsbD_field t (Nat.zero_le i) (by omega)
  all_goals exact getLsbD_field t (by omega) (by omega)

/-- The effect of any word, as one equation. -/
theorem Gpe.effect_decode (g : Gpe) (t : Token) :
    g.effect (decode .gpe t) =
      { g with
        col := if tokenKind t = 0b01#2 then t.extractLsb' 0 32 else g.col
        run := tokenRun t
        pc := 0
        fault := g.fault || !tokenLegal t } := by
  rcases kind_cases (tokenKind t) with hk | hk | hk | hk
  · simp [decode, decodeGpe_of_kind00 hk, Gpe.effect, Gpe.start, tokenRun, tokenLegal, hk]
  · simp [decode, decodeGpe_of_kind01 hk, Gpe.effect, Gpe.start, tokenRun, tokenLegal, hk, packColour_fields]
  · simp [decode, decodeGpe_of_kind10 hk, Gpe.effect, Gpe.start, tokenRun, tokenLegal, hk]
  · simp [decode, decodeGpe_of_kind11 hk, Gpe.effect, Gpe.start, tokenRun, tokenLegal, hk]

/-- The script a GPE executes after it has taken a word is the word's. -/
theorem Gpe.script_effect_decode (c : Config) (g : Gpe) (t : Token) :
    (g.effect (decode .gpe t)).script c = tokenScript c t := by
  unfold tokenScript
  have hgpe : engineOf (decode .gpe t) = .gpe := engineOf_decode .gpe t
  cases hi : decode .gpe t with
  | gpeColor | gpeEnd | gpeRsvd00 | gpeRsvd11 => rfl
  | speInit | speColor | speEnd | speRsvd11 => rw [hi] at hgpe; cases hgpe

/-! ### What the GPE has issued and will issue (R75) -/

/-- An idle GPE has only its channel to work off. -/
theorem Gpe.fullTrace_of_idle (c : Config) {g : Gpe} (hr : g.run = .idle) :
    g.fullTrace c = g.trace ++ (if g.fault then [] else tokensTrace c g.tok) := by
  rw [Gpe.fullTrace, Gpe.pending, Gpe.script_idle hr, List.drop_nil, List.nil_append]

/-- At the start of a script the GPE has all of it to issue. -/
theorem Gpe.fullTrace_of_start (c : Config) {g : Gpe} (hpc : g.pc = 0) (hw : g.wait = false) :
    g.fullTrace c = g.trace ++ (g.script c ++ (if g.fault then [] else tokensTrace c g.tok)) := by
  simp [Gpe.fullTrace, Gpe.pending, hpc, hw]

/-- A word that is taken leaves the channel and becomes the script. -/
theorem Gpe.fullTrace_offer {c : Config} {g : Gpe} {w : Token} {ws : List Token} (hr : g.run = .idle)
    (hw : g.wait = false) (ht : g.tok = w :: ws) : (g.offer (decode .gpe w)).fullTrace c = g.fullTrace c := by
  unfold Gpe.offer
  split
  · rename_i hready
    have hf : g.fault = false := (g.ready_iff.mp hready).2
    rw [Gpe.fullTrace_of_start c (by rw [Gpe.effect_decode]) (by rw [Gpe.effect_decode]; exact hw),
      Gpe.script_effect_decode, Gpe.effect_decode, Gpe.fullTrace_of_idle c hr, ht, tokensTrace]
    cases hlegal : tokenLegal w <;> simp [hf, ht]
  · rfl

/-- An element that is issued moves from the rest of the script to the trace, and a token that retires has none left. -/
theorem Gpe.fullTrace_advance {c : Config} {g : Gpe} (hw : g.wait = false) :
    (g.advance c).fullTrace c = g.fullTrace c := by
  rcases g.advance_cases c with ⟨e, he, heq⟩ | ⟨hlen, heq⟩ | ⟨-, heq⟩ <;> rw [heq]
  · have hdrop : (g.script c).drop g.pc.toNat = e :: (g.script c).drop (g.pc.toNat + 1) :=
      List.drop_eq_getElem?_toList_append.trans (by rw [show (g.script c)[g.pc.toNat]? = some e from he]; rfl)
    change (g.trace ++ [e]) ++ ((g.script c).drop (g.pc.toNat + 1) ++ _) = g.fullTrace c
    simp [Gpe.fullTrace, Gpe.pending, hw, hdrop]
  · rw [Gpe.fullTrace_of_idle c g.retire_run, g.retire_trace, g.retire_fault, g.retire_tok]
    simp [Gpe.fullTrace, Gpe.pending, hw, hlen]

theorem Gpe.fullTrace_move (c : Config) (g : Gpe) : (g.move c).fullTrace c = g.fullTrace c := by
  unfold Gpe.move
  split
  · rfl
  · rename_i hw
    have hw' : g.wait = false := by simpa using hw
    split
    · rename_i hr
      split
      · rfl
      · rename_i ht
        exact Gpe.fullTrace_offer hr hw' ht
    · exact Gpe.fullTrace_advance hw'

/-- An answer moves `G_PC` past the element that was issued, whatever it writes to `G_PINQ` and `g_rsp`. -/
theorem Gpe.fullTrace_answered {c : Config} {g : Gpe} {e : GEvent} (hw : g.wait = true) (he : g.element c = some e)
    (pinq : Bool) (rsp : List Nat) :
    Gpe.fullTrace c { g.answered with pinq := pinq, rsp := rsp } = g.fullTrace c := by
  have hpc : (g.pc + 1).toNat = g.pc.toNat + 1 := Gpe.toNat_pc_succ (List.getElem?_eq_some_iff.mp he).1
  change g.trace ++ ((g.script c).drop ((g.pc + 1).toNat + 0) ++ _) = g.fullTrace c
  rw [hpc, Nat.add_zero, Gpe.fullTrace, Gpe.pending, hw]
  rfl

/-- A word the host sends adds its script at the end, unless no token will be taken after those before it. -/
theorem Gpe.fullTrace_append_word (c : Config) (g : Gpe) (w : Token) :
    Gpe.fullTrace c { g with tok := g.tok ++ [w] } = g.fullTrace c ++
      (if g.fault = false ∧ ∀ x ∈ g.tok, tokenLegal x = true then tokenScript c w else []) := by
  change g.trace ++ ((g.script c).drop _ ++ (if g.fault then [] else tokensTrace c (g.tok ++ [w]))) = _
  rw [tokensTrace_append_word]
  cases hf : g.fault <;> simp [Gpe.fullTrace, Gpe.pending, hf]

/-- R75: no event but the host's word and hardware reset changes what the GPE has issued and will issue. -/
theorem Gpe.fullTrace_react (c : Config) {m : Move} (g : Gpe) (hrst : ∀ col fill, m ≠ .rst col fill)
    (hword : ∀ w, m ≠ .gpeToken w) : (g.react c m).fullTrace c = g.fullTrace c := by
  cases m with
  | gpe => exact g.fullTrace_move c
  | pinAnswer err =>
    rcases g.onPin_cases c err with ⟨v, hw, he, heq⟩ | heq <;> rw [Gpe.react, heq]
    exact Gpe.fullTrace_answered hw he v g.rsp
  | delayDone =>
    rcases g.onDelay_cases c with ⟨n, hw, he, heq⟩ | heq <;> rw [Gpe.react, heq]
    exact Gpe.fullTrace_answered hw he g.pinq g.rsp
  | gpeRspTaken =>
    rcases g.onTaken_cases c with ⟨st, code, hw, he, heq⟩ | heq <;> rw [Gpe.react, heq]
    exact Gpe.fullTrace_answered hw he g.pinq _
  | gpeToken w => exact absurd rfl (hword w)
  | rst col fill => exact absurd rfl (hrst col fill)
  | spe | serAnswer | speRspTaken | speToken | lateAnswer => rfl

/-- Settles O27: a step is the GPE's reaction to the first event, and the reactions are those of `Gpe.fullTrace_react` and
`Gpe.fullTrace_append_word`. -/
theorem gpeTraceIsAFunctionOfItsTokens : Obligations.GpeTraceIsAFunctionOfItsTokens := by
  intro s t h hrst
  rw [step_cfg h]
  cases ha : s.agenda with
  | nil =>
    rw [step_next_of_no_event ha h]
    exact ⟨fun _ => rfl, nofun⟩
  | cons m ms =>
    rw [(step_next ha h).1]
    refine ⟨fun hword => ?_, ?_⟩
    · exact s.gpe.fullTrace_react s.cfg (fun col fill hm => hrst col fill ms (hm ▸ ha)) fun w hm => hword w ms (hm ▸ rfl)
    · rintro w _ ⟨rfl, rfl⟩
      exact s.gpe.fullTrace_append_word s.cfg w

end Sys2Proof.Machine

namespace Sys2Proof.Machine

/-! ### Scripts as the waveforms of bits (R66 to R71) -/

/-- The bits of a word, most significant first, as the scripts send them (R69). -/
def bitsMsbFirst {n : Nat} (v : BitVec n) : List Bool := (List.range n).reverse.map v.getLsbD

@[simp] theorem length_bitsMsbFirst {n : Nat} (v : BitVec n) : (bitsMsbFirst v).length = n := by
  simp [bitsMsbFirst]

theorem count_false_bitsMsbFirst {n : Nat} (v : BitVec n) : (bitsMsbFirst v).count false = zeroBits n v := by
  rw [bitsMsbFirst, List.map_reverse, List.count_reverse, List.count, List.countP_map, zeroBits]
  congr 1
  funext i
  cases h : v.getLsbD i <;> simp [h]

theorem byteScript_eq_flatMap (c : Config) (d : Byte) : byteScript c d = (bitsMsbFirst d).flatMap (bitScript c) := by
  rw [bitsMsbFirst, List.flatMap_map]
  rfl

theorem colorScript_eq_flatMap (c : Config) (col : BitVec 32) :
    colorScript c col = (bitsMsbFirst col).flatMap (bitScript c) := by
  have hbits : (List.range 32).map (31 - ·) = (List.range 32).reverse := by decide
  rw [colourIsItsBitsMsbFirst, bitsMsbFirst, List.flatMap_map, ← hbits, List.flatMap_map]

/-- A 0 bit has five elements; so has a 1 bit when `T_LOW1` is present, and four otherwise (R67, R68). -/
theorem length_bitScript (c : Config) (b : Bool) :
    (bitScript c b).length = 4 + if b then (if c.tLow1.isSome then 1 else 0) else 1 := by
  cases b with
  | false => rfl
  | true => cases h : c.tLow1 <;> simp [bitScript, h]

/-- Each bit has four elements and one more for a 0, or for a 1 when `T_LOW1` is present. -/
theorem length_flatMap_bitScript (c : Config) (bs : List Bool) :
    (bs.flatMap (bitScript c)).length =
      4 * bs.length + bs.count false + if c.tLow1.isSome then bs.length - bs.count false else 0 := by
  induction bs with
  | nil => simp
  | cons b bs ih =>
    have hle : bs.count false ≤ bs.length := List.count_le_length
    rw [List.flatMap_cons, List.length_append, length_bitScript, ih, List.length_cons]
    cases b with
    | false =>
      rw [List.count_cons_self, if_neg (by decide)]
      split <;> omega
    | true =>
      rw [List.count_cons_of_ne (by decide), if_pos rfl]
      split <;> omega

/-- Every bit raises the line once and lowers it once (R66). -/
theorem pinCount_bitScript (c : Config) (v b : Bool) : pinCount v (bitScript c b) = 1 := by
  cases b with
  | false => cases v <;> rfl
  | true => cases v <;> cases h : c.tLow1 <;> simp [pinCount, bitScript, h]

theorem pinCount_flatMap_bitScript (c : Config) (v : Bool) (bs : List Bool) :
    pinCount v (bs.flatMap (bitScript c)) = bs.length := by
  have hbit : List.count (.pinSet v) ∘ bitScript c = fun _ => 1 := funext (pinCount_bitScript c v)
  rw [pinCount, List.count_flatMap, hbit, List.map_const']
  simp

theorem transitions_append (v : Bool) (es fs : List GEvent) :
    transitions v (es ++ fs) = transitions v es + transitions (levelAfter v es) fs := by
  induction es generalizing v with
  | nil => simp [transitions, levelAfter]
  | cons e es ih => cases e <;> simp [transitions, levelAfter, ih, Nat.add_assoc]

/-- From low, every bit makes two changes of the commanded level (R66, R70). -/
theorem transitions_bitScript (c : Config) (b : Bool) : transitions false (bitScript c b) = 2 := by
  cases b with
  | false => rfl
  | true => cases h : c.tLow1 <;> simp [bitScript, h, transitions]

theorem transitions_flatMap_bitScript (c : Config) (bs : List Bool) :
    transitions false (bs.flatMap (bitScript c)) = 2 * bs.length := by
  induction bs with
  | nil => rfl
  | cons b bs ih =>
    rw [List.flatMap_cons, transitions_append, levelAfter_bitScript, transitions_bitScript, ih, List.length_cons]
    omega

/-- Settles O18: a script is its bits' waveforms, which `length_flatMap_bitScript` counts. -/
theorem scriptLengths : Obligations.ScriptLengths := by
  refine fun c => ⟨fun d => ?_, fun col => ?_⟩
  · rw [byteScript_eq_flatMap, length_flatMap_bitScript, length_bitsMsbFirst, count_false_bitsMsbFirst]
  · rw [colorScript_eq_flatMap, length_flatMap_bitScript, length_bitsMsbFirst, count_false_bitsMsbFirst]

/-- Settles O19: each bit's waveform raises and lowers the line once from low and leaves it low. -/
theorem sixteenTransitionsPerByte : Obligations.SixteenTransitionsPerByte := by
  refine fun c => ⟨fun d => ?_, fun col => ?_, rfl, rfl, rfl⟩
  · refine ⟨?_, ?_, ?_, levelAfter_byteScript c false d⟩
    · rw [byteScript_eq_flatMap, pinCount_flatMap_bitScript, length_bitsMsbFirst]
    · rw [byteScript_eq_flatMap, pinCount_flatMap_bitScript, length_bitsMsbFirst]
    · rw [byteScript_eq_flatMap, transitions_flatMap_bitScript, length_bitsMsbFirst]
  · refine ⟨?_, ?_, levelAfter_colorScript c false col⟩
    · rw [colorScript_eq_flatMap, pinCount_flatMap_bitScript, pinCount_flatMap_bitScript, length_bitsMsbFirst]
    · rw [colorScript_eq_flatMap, transitions_flatMap_bitScript, length_bitsMsbFirst]

/-- Settles O16: the low hold of a 1 bit is the elements of `T_LOW1` as a list. -/
theorem bitWaveforms : Obligations.BitWaveforms :=
  fun c => ⟨fun h => by simp [bitScript, h], fun d h => by simp [bitScript, h], rfl⟩

/-! ### The packed colour (R17) -/

section
variable (r g b w : Byte)

theorem extractLsb'_packColour_red : (packColour r g b w).extractLsb' 24 8 = r := by
  rw [packColour, BitVec.extractLsb'_cast, BitVec.extractLsb'_append_eq_of_le (by decide),
    BitVec.extractLsb'_append_eq_of_le (by decide), BitVec.extractLsb'_append_eq_of_le (by decide)]
  exact BitVec.extractLsb'_eq_self

theorem extractLsb'_packColour_green : (packColour r g b w).extractLsb' 16 8 = g := by
  rw [packColour, BitVec.extractLsb'_cast, BitVec.extractLsb'_append_eq_of_le (by decide),
    BitVec.extractLsb'_append_eq_of_le (by decide), BitVec.extractLsb'_append_eq_of_add_le (by decide)]
  exact BitVec.extractLsb'_eq_self

theorem extractLsb'_packColour_blue : (packColour r g b w).extractLsb' 8 8 = b := by
  rw [packColour, BitVec.extractLsb'_cast, BitVec.extractLsb'_append_eq_of_le (by decide),
    BitVec.extractLsb'_append_eq_of_add_le (by decide)]
  exact BitVec.extractLsb'_eq_self

theorem extractLsb'_packColour_white : (packColour r g b w).extractLsb' 0 8 = w := by
  rw [packColour, BitVec.extractLsb'_cast, BitVec.extractLsb'_append_eq_of_add_le (by decide)]
  exact BitVec.extractLsb'_eq_self

/-- The bytes of a packed colour are sent in the order red, green, blue, white (R71). -/
theorem colorScript_packColour (c : Config) :
    colorScript c (packColour r g b w) = byteScript c r ++ byteScript c g ++ byteScript c b ++ byteScript c w := by
  simp [colorScript, extractLsb'_packColour_red, extractLsb'_packColour_green, extractLsb'_packColour_blue,
    extractLsb'_packColour_white]

theorem toNat_packColour :
    (packColour r g b w).toNat = r.toNat * 2 ^ 24 + g.toNat * 2 ^ 16 + b.toNat * 2 ^ 8 + w.toNat := by
  have happend {n : Nat} (x : BitVec n) (y : Byte) : (x ++ y).toNat = x.toNat * 2 ^ 8 + y.toNat := by
    rw [BitVec.toNat_append, ← Nat.shiftLeft_add_eq_or_of_lt y.isLt, Nat.shiftLeft_eq]
  rw [packColour, BitVec.toNat_cast, happend, happend, happend]
  omega

end

/-- Settles O12: the take of the token, the packed colour as a number, and its script byte by byte. -/
theorem gpeColorTaken : Obligations.GpeColorTaken := by
  intro r g b w s hr hf
  exact ⟨_, exec_of_gpe_ready rfl hr hf, rfl, toNat_packColour r g b w, colorScript_packColour r g b w s.cfg⟩

/-- Settles O13: the take of the token; its script is written out. -/
theorem gpeEndTaken : Obligations.GpeEndTaken :=
  fun _ hr hf => ⟨_, exec_of_gpe_ready rfl hr hf, rfl, rfl⟩

end Sys2Proof.Machine

namespace Sys2Proof.Machine

/-! ### A busy or faulted engine (R63, R78, R102) -/

/-- A busy or faulted GPE leaves the token on its channel. -/
theorem Gpe.offer_of_busy_or_faulted {g : Gpe} (h : g.run ≠ .idle ∨ g.fault = true) (i : Instr) : g.offer i = g :=
  if_neg fun hready => by
    obtain ⟨hr, hf⟩ := g.ready_iff.mp hready
    simp [hr, hf] at h

/-- A busy or faulted SPE leaves the token on its channel. -/
theorem Spe.offer_of_busy_or_faulted {p : Spe} (h : p.run ≠ .idle ∨ p.fault = true) (c : Config) (i : Instr) :
    p.offer c i = some p :=
  if_neg fun hready => by
    obtain ⟨hr, hf⟩ := p.ready_iff.mp hready
    simp [hr, hf] at h

/-! Of the operations of an engine only the take of a token removes a word from its channel. -/

@[simp] theorem Gpe.advance_tok (c : Config) (g : Gpe) : (g.advance c).tok = g.tok := by
  rcases g.advance_cases c with ⟨e, -, h⟩ | ⟨-, h⟩ | ⟨-, h⟩ <;> exact (congrArg Gpe.tok h).trans rfl

@[simp] theorem Gpe.onPin_tok (c : Config) (err : Bool) (g : Gpe) : (g.onPin c err).tok = g.tok := by
  rcases g.onPin_cases c err with ⟨v, -, -, h⟩ | h <;> exact (congrArg Gpe.tok h).trans rfl

@[simp] theorem Gpe.onDelay_tok (c : Config) (g : Gpe) : (g.onDelay c).tok = g.tok := by
  rcases g.onDelay_cases c with ⟨n, -, -, h⟩ | h <;> exact (congrArg Gpe.tok h).trans rfl

@[simp] theorem Gpe.onTaken_tok (c : Config) (g : Gpe) : (g.onTaken c).tok = g.tok := by
  rcases g.onTaken_cases c with ⟨st, code, -, -, h⟩ | h <;> exact (congrArg Gpe.tok h).trans rfl

@[simp] theorem Spe.advance_tok (c : Config) (p : Spe) : (p.advance c).tok = p.tok := by
  rcases p.advance_cases c with ⟨e, -, h⟩ | ⟨-, h⟩ <;> exact (congrArg Spe.tok h).trans rfl

@[simp] theorem Spe.onSerial_tok (c : Config) (a : SerAnswer) (p : Spe) : (p.onSerial c a).tok = p.tok := by
  rcases p.onSerial_cases c a with ⟨-, -, -, -, h⟩ | ⟨_, -, -, -, -, h⟩ | ⟨_, -, -, -, -, h⟩ | h <;>
    exact (congrArg Spe.tok h).trans rfl

@[simp] theorem Spe.onTaken_tok (c : Config) (p : Spe) : (p.onTaken c).tok = p.tok := by
  rcases p.onTaken_cases c with ⟨-, -, -, h⟩ | ⟨-, -, h⟩ | h <;> exact (congrArg Spe.tok h).trans rfl

/-- A busy or faulted GPE keeps its channel in its own move. -/
theorem Gpe.move_tok {g : Gpe} (h : g.run ≠ .idle ∨ g.fault = true) (c : Config) : (g.move c).tok = g.tok := by
  unfold Gpe.move
  split
  · rfl
  · split
    · split
      · rfl
      · rw [Gpe.offer_of_busy_or_faulted h]
    · exact g.advance_tok c

/-- A busy or faulted SPE keeps its channel in its own move. -/
theorem Spe.move_tok {c : Config} {p q : Spe} (h : p.run ≠ .idle ∨ p.fault = true) (hq : p.move c = some q) :
    q.tok = p.tok := by
  unfold Spe.move at hq
  split at hq
  · cases hq; rfl
  · split at hq
    · split at hq
      · cases hq; rfl
      · rw [Spe.offer_of_busy_or_faulted h] at hq
        cases hq; rfl
    · cases hq; exact p.advance_tok c

/-- No event takes a word off the channel of a busy or faulted GPE. -/
theorem Gpe.react_tok {g : Gpe} (h : g.run ≠ .idle ∨ g.fault = true) (c : Config) (m : Move) :
    ∃ ws, (g.react c m).tok = g.tok ++ ws := by
  cases m with
  | gpeToken w => exact ⟨[w], rfl⟩
  | gpe => exact ⟨[], by rw [List.append_nil]; exact g.move_tok h c⟩
  | pinAnswer err => exact ⟨[], by simp [Gpe.react]⟩
  | delayDone => exact ⟨[], by simp [Gpe.react]⟩
  | gpeRspTaken => exact ⟨[], by simp [Gpe.react]⟩
  | rst | spe | serAnswer | speRspTaken | speToken | lateAnswer => exact ⟨[], g.tok.append_nil.symm⟩

/-- No event takes a word off the channel of a busy or faulted SPE. -/
theorem Spe.react_tok {c : Config} {m : Move} {p q : Spe} (h : p.run ≠ .idle ∨ p.fault = true)
    (hq : p.react c m = some q) : ∃ ws, q.tok = p.tok ++ ws := by
  cases m with
  | speToken w => cases hq; exact ⟨[w], rfl⟩
  | spe => exact ⟨[], by rw [List.append_nil]; exact Spe.move_tok h hq⟩
  | serAnswer a => cases hq; exact ⟨[], by simp⟩
  | speRspTaken => cases hq; exact ⟨[], by simp⟩
  | rst | gpe | pinAnswer | delayDone | gpeRspTaken | gpeToken | lateAnswer =>
    cases hq; exact ⟨[], p.tok.append_nil.symm⟩

/-- Settles O11: a token that is offered waits, no event removes a word, and who writes `FB` is an SPE that is idle and
unfaulted (`onlyInitAndColourWriteTheBuffer`). -/
theorem busyOrFaultedEngineTakesNothing : Obligations.BusyOrFaultedEngineTakesNothing := by
  refine ⟨fun i s => ⟨fun hi h => ?_, fun hi h => ?_⟩, fun s t h hrst => ?_⟩
  · rw [exec_eq_gpeOffer hi, Gpe.offer_of_busy_or_faulted h]
    rfl
  · rw [exec_eq_speOffer hi, Spe.offer_of_busy_or_faulted h]
    rfl
  · have hfb (hb : s.spe.run ≠ .idle ∨ s.spe.fault = true) : t.spe.fb = s.spe.fb := by
      by_contra hne
      obtain ⟨col, fill, ms, ha⟩ | ⟨w, ws, ms, -, hr, hf, -⟩ := onlyInitAndColourWriteTheBuffer s t h hne
      · exact hrst col fill ms ha
      · simp [hr, hf] at hb
    cases ha : s.agenda with
    | nil =>
      obtain rfl := step_next_of_no_event ha h
      exact ⟨fun _ => ⟨[], by simp⟩, fun _ => ⟨⟨[], by simp⟩, rfl⟩⟩
    | cons m ms =>
      obtain ⟨hg, hp⟩ := step_next ha h
      exact ⟨fun hb => hg ▸ s.gpe.react_tok hb s.cfg m, fun hb => ⟨Spe.react_tok hb hp, hfb hb⟩⟩

/-! ### Single steps of the GPE (R62 to R65) -/

/-- Settles O9: the move of an engine that is idle and waits for no answer is `exec` of the oldest word, decoded. -/
theorem stepRunsTheDecodedToken : Obligations.StepRunsTheDecodedToken := by
  refine fun s t ts ms hok => ⟨fun ha hw hr ht => ?_, fun ha hw hr ht => ?_⟩
  · rw [step, if_pos hok, nextEvent, ha]
    change gpeMove (s.withAgenda ms) = _
    simp [gpeMove, hw, hr, ht]
  · rw [step, if_pos hok, nextEvent, ha]
    change speMove (s.withAgenda ms) = _
    simp [speMove, hw, hr, ht]

section
variable {c : Config} {g : Gpe}

/-- A GPE that executes a token and waits for no answer issues or retires. -/
theorem Gpe.move_of_running (hw : g.wait = false) (hr : g.run ≠ .idle) : g.move c = g.advance c := by
  simp [Gpe.move, hw, hr]

theorem Gpe.advance_of_element {e : GEvent} (he : g.element c = some e) :
    g.advance c = { g with trace := g.trace ++ [e], wait := true } := by
  simp [Gpe.advance, he]

theorem Gpe.advance_of_past_last (h : g.pc.toNat = (g.script c).length) : g.advance c = g.retire := by
  simp [Gpe.advance, Gpe.element, h]

theorem Gpe.onPin_of_element {v : Bool} (hw : g.wait = true) (he : g.element c = some (.pinSet v)) (err : Bool) :
    g.onPin c err = { g.answered with pinq := v } := by
  simp [Gpe.onPin, hw, he]

theorem Gpe.onDelay_of_element {n : Nat} (hw : g.wait = true) (he : g.element c = some (.delay n)) :
    g.onDelay c = g.answered := by
  simp [Gpe.onDelay, hw, he]

theorem Gpe.onTaken_of_element {st : Status} {code : Nat} (hw : g.wait = true)
    (he : g.element c = some (.rsp st code)) :
    g.onTaken c = { g.answered with rsp := g.rsp ++ [responseWord c st code] } := by
  simp [Gpe.onTaken, hw, he]

end

/-- Settles O22, by the two cases of the GPE's own move. -/
theorem gpeIssuesOrRetires : Obligations.GpeIssuesOrRetires := by
  refine fun s ms hok ha hw hr => ⟨fun e he => ?_, fun hlen => ?_⟩
  · rw [step_eq_react hok ha, Gpe.react, Gpe.move_of_running hw hr, Gpe.advance_of_element he]
    rfl
  · rw [step_eq_react hok ha, Gpe.react, Gpe.move_of_running hw hr, Gpe.advance_of_past_last hlen]
    rfl

/-- Settles O23, by `Gpe.onPin_of_element`, in which `pin_err` is not read. -/
theorem pinFailureIsDiscarded : Obligations.PinFailureIsDiscarded := by
  intro s ms err v hok ha hw he
  rw [step_eq_react hok ha, Gpe.react, Gpe.onPin_of_element hw he]
  rfl

/-- Settles O24, by `Gpe.onDelay_of_element` and `Gpe.onTaken_of_element`. -/
theorem gpeDelayAndResponseAnswered : Obligations.GpeDelayAndResponseAnswered := by
  refine fun s ms hok hw => ⟨fun n ha he => ?_, fun st code ha he => ?_⟩
  · rw [step_eq_react hok ha, Gpe.react, Gpe.onDelay_of_element hw he]
    rfl
  · rw [step_eq_react hok ha, Gpe.react, Gpe.onTaken_of_element hw he]
    rfl

end Sys2Proof.Machine

namespace Sys2Proof.Machine

/-! ### The trace of a whole write (R73, R74) -/

/-- Legal words at the head of a channel are all taken: their scripts come first, in order. -/
theorem tokensTrace_append_of_legal (c : Config) {ts : List Token} (us : List Token)
    (h : ∀ x ∈ ts, tokenLegal x = true) : tokensTrace c (ts ++ us) = ts.flatMap (tokenScript c) ++ tokensTrace c us := by
  induction ts with
  | nil => rfl
  | cons t ts ih =>
    obtain ⟨ht, hts⟩ := List.forall_mem_cons.mp h
    rw [List.cons_append, tokensTrace, if_pos ht, ih hts, List.flatMap_cons, List.append_assoc]

theorem tokenScript_encode_gpeColor (c : Config) (r g b w : Byte) :
    tokenScript c (encode (.gpeColor r g b w)) = colorScript c (packColour r g b w) := by
  rw [tokenScript, show decode .gpe _ = _ from decode_encode (.gpeColor r g b w)]

theorem tokenScript_encode_gpeEnd (c : Config) : tokenScript c (encode .gpeEnd) = endScript c := by
  rw [tokenScript, show decode .gpe _ = _ from decode_encode .gpeEnd]

theorem tokenLegal_encode_gpeColor (r g b w : Byte) : tokenLegal (encode (.gpeColor r g b w)) = true := by
  simp [tokenLegal, encode, tokenKind_packToken]

theorem tokensTrace_gpeWrite (c : Config) (cs : List Colour) :
    tokensTrace c ((gpeWrite cs).map encode) =
      cs.flatMap (fun x => colorScript c (packColour x.r x.g x.b x.w)) ++ endScript c := by
  have hlegal : ∀ t ∈ (cs.map fun x => Instr.gpeColor x.r x.g x.b x.w).map encode, tokenLegal t = true := by
    simp [tokenLegal_encode_gpeColor]
  rw [gpeWrite, List.map_append, tokensTrace_append_of_legal c _ hlegal]
  simp [List.flatMap_map, tokenScript_encode_gpeColor, tokenScript_encode_gpeEnd, tokensTrace]

/-- Settles O26: an idle GPE has its channel to work off (`Gpe.fullTrace_of_idle`), and the channel holds the write's words. -/
theorem gpeWriteTrace : Obligations.GpeWriteTrace := by
  intro c g cs hr hf ht
  rw [Gpe.fullTrace_of_idle c hr, hf, ht, if_neg Bool.false_ne_true, tokensTrace_gpeWrite, List.append_assoc]
  rfl

/-! ### Runs of the two engines side by side -/

/-- The GPE after events, first to last. -/
def Gpe.reacts (c : Config) (ms : List Move) (g : Gpe) : Gpe := ms.foldl (fun g m => g.react c m) g

/-- The SPE after events, first to last, if every access is inside `FB`. -/
def Spe.reacts (c : Config) (ms : List Move) (p : Spe) : Option Spe := ms.foldlM (fun p m => p.react c m) p

theorem Gpe.reacts_append (c : Config) (ms ms' : List Move) (g : Gpe) :
    g.reacts c (ms ++ ms') = (g.reacts c ms).reacts c ms' :=
  List.foldl_append

theorem Spe.reacts_append (c : Config) (ms ms' : List Move) (p : Spe) :
    p.reacts c (ms ++ ms') = (p.reacts c ms).bind (Spe.reacts c ms') :=
  List.foldlM_append

/-- A run is each engine's reactions to the events by itself (R3). -/
theorem runSteps_eq_reacts {s : State} {ms rest : List Move} (hok : s.cfg.ok = true) (ha : s.agenda = ms ++ rest) :
    runSteps ms.length s =
      ((s.withAgenda rest).withGpe (s.gpe.reacts s.cfg ms)).withSpeOrFault (s.spe.reacts s.cfg ms) := by
  induction ms generalizing s with
  | nil =>
    cases s
    cases ha
    rfl
  | cons m ms ih =>
    rw [List.length_cons, runSteps, step_eq_react hok ha, Spe.reacts, List.foldlM_cons]
    cases hp : s.spe.react s.cfg m with
    | none => rfl
    | some p => exact ih (s := ((s.withAgenda (ms ++ rest)).withGpe (s.gpe.react s.cfg m)).withSpe p) hok rfl

/-! ### A script played to its end (R62) -/

/-- The response word an element puts on `g_rsp` (R56). -/
def GEvent.responseWord? (c : Config) : GEvent → Option Nat
  | .pinSet _ => none
  | .delay _ => none
  | .rsp st code => some (responseWord c st code)

/-- The GPE once elements have been issued and answered: `G_PC` has moved past them, the line is at the level they command,
and the host has their responses. -/
def Gpe.played (c : Config) (es : List GEvent) (g : Gpe) : Gpe :=
  { g with
    pinq := levelAfter g.pinq es
    pc := g.pc + BitVec.ofNat 8 es.length
    trace := g.trace ++ es
    rsp := g.rsp ++ es.filterMap (GEvent.responseWord? c) }

theorem Gpe.played_nil (c : Config) (g : Gpe) : g.played c [] = g := by
  simp [Gpe.played, levelAfter]

theorem Gpe.played_cons (c : Config) (e : GEvent) (es : List GEvent) (g : Gpe) :
    g.played c (e :: es) = (g.played c [e]).played c es := by
  have hpc : g.pc + BitVec.ofNat 8 (es.length + 1) = g.pc + 1 + BitVec.ofNat 8 es.length := by
    rw [BitVec.ofNat_add, BitVec.add_assoc, BitVec.add_comm (BitVec.ofNat 8 es.length)]
    rfl
  have hlevel : levelAfter g.pinq (e :: es) = levelAfter (levelAfter g.pinq [e]) es := levelAfter_append g.pinq [e] es
  have hrsp : (e :: es).filterMap (GEvent.responseWord? c) =
      [e].filterMap (GEvent.responseWord? c) ++ es.filterMap (GEvent.responseWord? c) := List.filterMap_append (l := [e])
  simp [Gpe.played, hpc, hlevel, hrsp]

/-- Each kind of element has its own answer. -/
theorem answersGpe_cases {e : GEvent} {m : Move} (h : answersGpe e m = true) :
    (∃ v err, e = .pinSet v ∧ m = .pinAnswer err) ∨ (∃ n, e = .delay n ∧ m = .delayDone) ∨
      (∃ st code, e = .rsp st code ∧ m = .gpeRspTaken) := by
  unfold answersGpe at h
  split at h
  · exact .inl ⟨_, _, rfl, rfl⟩
  · exact .inr (.inl ⟨_, rfl, rfl⟩)
  · exact .inr (.inr ⟨_, _, rfl, rfl⟩)
  · cases h

theorem playsScript_nil {ms : List Move} (h : playsScript [] ms = true) : ms = [] := by
  cases ms with
  | nil => rfl
  | cons m ms => simp [playsScript] at h

theorem playsScript_cons {e : GEvent} {es : List GEvent} {ms : List Move} (h : playsScript (e :: es) ms = true) :
    ∃ m ms', ms = .gpe :: m :: ms' ∧ answersGpe e m = true ∧ playsScript es ms' = true := by
  unfold playsScript at h
  split at h
  · rename_i heq
    cases heq
  · rename_i m ms' heq
    cases heq
    exact ⟨m, ms', rfl, Bool.and_eq_true_iff.mp h⟩
  · cases h

/-- An element that is issued and then answered has been played. -/
theorem Gpe.react_issue_answer {c : Config} {g : Gpe} {e : GEvent} {m : Move} (hw : g.wait = false) (hr : g.run ≠ .idle)
    (he : g.element c = some e) (hm : answersGpe e m = true) : (g.react c .gpe).react c m = g.played c [e] := by
  rw [Gpe.react, Gpe.move_of_running hw hr, Gpe.advance_of_element he]
  have he' : Gpe.element c { g with trace := g.trace ++ [e], wait := true } = some e := he
  obtain ⟨v, err, rfl, rfl⟩ | ⟨n, rfl, rfl⟩ | ⟨st, code, rfl, rfl⟩ := answersGpe_cases hm
  · rw [Gpe.react, Gpe.onPin_of_element rfl he']
    simp [Gpe.played, Gpe.answered, levelAfter, hw, GEvent.responseWord?]
  · rw [Gpe.react, Gpe.onDelay_of_element rfl he']
    simp [Gpe.played, Gpe.answered, levelAfter, hw, GEvent.responseWord?]
  · rw [Gpe.react, Gpe.onTaken_of_element rfl he']
    simp [Gpe.played, Gpe.answered, levelAfter, hw, GEvent.responseWord?]

/-- Moves that play the rest of a script play it to its end. -/
theorem Gpe.reacts_of_playsScript {c : Config} {es : List GEvent} {ms : List Move} {g : Gpe} (hw : g.wait = false)
    (hr : g.run ≠ .idle) (hes : (g.script c).drop g.pc.toNat = es) (hms : playsScript es ms = true) :
    g.reacts c ms = g.played c es := by
  induction es generalizing ms g with
  | nil =>
    rw [playsScript_nil hms, Gpe.played_nil]
    rfl
  | cons e es ih =>
    obtain ⟨m, ms', rfl, hm, hms'⟩ := playsScript_cons hms
    have he : g.element c = some e := by
      rw [Gpe.element, ← List.head?_drop, hes]
      rfl
    have hpc : (g.pc + 1).toNat = g.pc.toNat + 1 := Gpe.toNat_pc_succ (List.getElem?_eq_some_iff.mp he).1
    have hrest : ((g.played c [e]).script c).drop (g.played c [e]).pc.toNat = es := by
      change (g.script c).drop (g.pc + 1).toNat = es
      rw [hpc, ← List.tail_drop, hes]
      rfl
    change ((g.react c .gpe).react c m).reacts c ms' = _
    rw [Gpe.react_issue_answer hw hr he hm, ih (g := g.played c [e]) hw hr hrest hms', ← Gpe.played_cons]

/-- From its start a script is played and the token retires, `G_PC` having reached the end without a wrap (R19). -/
theorem Gpe.reacts_whole_script {c : Config} {ms : List Move} {g : Gpe} (hw : g.wait = false) (hr : g.run ≠ .idle)
    (hpc : g.pc = 0) (hms : playsScript (g.script c) ms = true) :
    g.reacts c (ms ++ [.gpe]) = (g.played c (g.script c)).retire := by
  have hplay : g.reacts c ms = g.played c (g.script c) := Gpe.reacts_of_playsScript hw hr (by rw [hpc]; rfl) hms
  have hpast : (g.played c (g.script c)).pc.toNat = ((g.played c (g.script c)).script c).length := by
    have hlen : (g.script c).length < 256 := (g.length_script_le c).trans_lt (by decide)
    change (g.pc + BitVec.ofNat 8 (g.script c).length).toNat = (g.script c).length
    simpa [hpc] using hlen
  rw [Gpe.reacts_append, hplay]
  exact (Gpe.move_of_running (g := g.played c (g.script c)) hw hr).trans (Gpe.advance_of_past_last hpast)

/-- The SPE does not react to the moves that play a script of the GPE (R3). -/
theorem Spe.reacts_of_playsScript {es : List GEvent} {ms : List Move} (hms : playsScript es ms = true) (c : Config)
    (p : Spe) : p.reacts c ms = some p := by
  induction es generalizing ms with
  | nil =>
    rw [playsScript_nil hms]
    rfl
  | cons e es ih =>
    obtain ⟨m, ms', rfl, hm, hms'⟩ := playsScript_cons hms
    obtain ⟨v, err, -, rfl⟩ | ⟨n, -, rfl⟩ | ⟨st, code, -, rfl⟩ := answersGpe_cases hm
    all_goals exact (ih hms' :)

/-! ### A whole token of the GPE -/

theorem tokenRun_ne_idle (t : Token) : tokenRun t ≠ .idle := by
  unfold tokenRun
  split_ifs <;> nofun

/-- The host gets one response for an `END` and for an illegal word, none for a `COLOR` (R71, R72, R102). -/
theorem filterMap_responseWord?_tokenScript (c : Config) (t : Token) :
    (tokenScript c t).filterMap (GEvent.responseWord? c) =
      if tokenKind t = 0b01#2 then []
      else if tokenKind t = 0b10#2 then [responseWord c .ok 0]
      else [responseWord c .illegal 0] := by
  rcases kind_cases (tokenKind t) with hk | hk | hk | hk
  · simp [tokenScript, decode, decodeGpe_of_kind00 hk, hk, illegalScript, GEvent.responseWord?]
  · rw [if_pos hk, tokenScript, decode, decodeGpe_of_kind01 hk, List.filterMap_eq_nil_iff]
    intro e he
    obtain ⟨b, hbit⟩ := mem_colorScript he
    cases e with
    | pinSet | delay => rfl
    | rsp st code => exact absurd hbit (rsp_notMem_bitScript c b st code)
  · simp [tokenScript, decode, decodeGpe_of_kind10 hk, hk, endScript, GEvent.responseWord?, List.filterMap_cons]
  · simp [tokenScript, decode, decodeGpe_of_kind11 hk, hk, illegalScript, GEvent.responseWord?]

/-- A word's script leaves the line low (R30). -/
theorem levelAfter_tokenScript (c : Config) (t : Token) : levelAfter false (tokenScript c t) = false := by
  rw [← Gpe.script_effect_decode c (Gpe.atReset 0) t, Gpe.levelAfter_script]

theorem Gpe.react_of_ready (c : Config) {g : Gpe} {t : Token} {ts : List Token} (hr : g.run = .idle)
    (hf : g.fault = false) (hw : g.wait = false) (ht : g.tok = t :: ts) :
    g.react c .gpe = g.taken.effect (decode .gpe t) := by
  have hoffer : g.offer (decode .gpe t) = g.taken.effect (decode .gpe t) := if_pos (g.ready_iff.mpr ⟨hr, hf⟩)
  simp [Gpe.react, Gpe.move, hw, hr, ht, hoffer]

/-- A whole token: the word is taken, its script is played to its end, and the GPE retires. -/
theorem Gpe.reacts_whole_token {c : Config} {g : Gpe} {t : Token} {ts : List Token} {ms : List Move} (hr : g.run = .idle)
    (hf : g.fault = false) (hw : g.wait = false) (ht : g.tok = t :: ts)
    (hms : playsScript (tokenScript c t) ms = true) :
    g.reacts c (.gpe :: (ms ++ [.gpe])) =
      ((g.taken.effect (decode .gpe t)).played c (tokenScript c t)).retire := by
  have hscript := Gpe.script_effect_decode c g.taken t
  have heff := g.taken.effect_decode t
  have hwait : (g.taken.effect (decode .gpe t)).wait = false := by rw [heff]; exact hw
  have hrun : (g.taken.effect (decode .gpe t)).run ≠ .idle := by rw [heff]; exact tokenRun_ne_idle t
  have hpc : (g.taken.effect (decode .gpe t)).pc = 0 := by rw [heff]
  change (g.react c .gpe).reacts c (ms ++ [.gpe]) = _
  rw [Gpe.react_of_ready c hr hf hw ht, Gpe.reacts_whole_script hwait hrun hpc (hscript ▸ hms), hscript]

/-- Settles O25: the run is the two engines' reactions, the GPE's is a whole token, and the SPE does not react. -/
theorem gpeTokenRunsItsScript : Obligations.GpeTokenRunsItsScript := by
  intro s t ts ms rest hok hr hf hw hlow ht ha hms
  have hagenda : s.agenda = (.gpe :: (ms ++ [.gpe])) ++ rest := by simp [ha]
  have hspe : s.spe.reacts s.cfg (.gpe :: (ms ++ [.gpe])) = some s.spe := by
    change s.spe.reacts s.cfg (ms ++ [.gpe]) = some s.spe
    rw [Spe.reacts_append, Spe.reacts_of_playsScript hms]
    rfl
  rw [show ms.length + 2 = (Move.gpe :: (ms ++ [.gpe])).length by simp, runSteps_eq_reacts hok hagenda, hspe,
    Gpe.reacts_whole_token hr hf hw ht hms, Gpe.effect_decode]
  simp [State.withSpeOrFault, State.withSpe, State.withGpe, State.withAgenda, Gpe.played, Gpe.retire, Gpe.start,
    Gpe.taken, hf, hw, hlow, ht, levelAfter_tokenScript, filterMap_responseWord?_tokenScript]

end Sys2Proof.Machine

namespace Sys2Proof.Machine

/-! ### The frame as a list of bytes (R39, R41) -/

theorem Memory.readBytes_eq_map (m : Memory) (a n : Nat) : m.readBytes a n = (List.range' a n).map m.read := by
  induction n generalizing a with
  | zero => rfl
  | succ n ih => rw [Memory.readBytes, List.range'_succ, List.map_cons, ih]

theorem frame_eq_map_read (c : Config) (m : Memory) : frame c m = (List.range c.n).map m.read := by
  rw [frame, Memory.readBytes_eq_map, List.range_eq_range']

theorem frame_of_zero {c : Config} {m : Memory} (h : ∀ a, a < c.n → m.read a = 0) :
    frame c m = List.replicate c.n 0 := by
  rw [frame_eq_map_read, List.eq_replicate_iff]
  simpa using h

/-- Writing list after list is writing the one followed by the other. -/
theorem Memory.writeBytes_append (m : Memory) (a : Nat) (vs ws : List Byte) :
    m.writeBytes a (vs ++ ws) = (m.writeBytes a vs).writeBytes (a + vs.length) ws := by
  induction vs generalizing m a with
  | nil => rfl
  | cons v vs ih =>
    rw [List.cons_append, Memory.writeBytes, ih, List.length_cons, Nat.add_right_comm, Nat.add_assoc]
    rfl

/-- Bytes written at the start of the buffer stand first in the frame, before the rest of what was there. -/
theorem frame_writeBytes {c : Config} {m : Memory} {vs : List Byte} (hm : m.wf = true) (h : vs.length ≤ c.n) :
    frame c (m.writeBytes 0 vs) = vs ++ (frame c m).drop vs.length := by
  rw [frame_eq_map_read, frame_eq_map_read]
  refine List.ext_getElem (by simp [h]) fun i hi _ => ?_
  rcases Nat.lt_or_ge i vs.length with hin | hout
  · have hread := Memory.read_writeBytes_inside 0 vs i hm hin
    rw [Nat.zero_add] at hread
    simp [List.getElem_append_left hin, hread]
  · have hread := Memory.read_writeBytes_outside 0 vs i hm (.inr (by omega))
    simp [List.getElem_append_right hout, hread, Nat.add_sub_cancel' hout]

/-! ### Writing a colour's slice into its slot (R81, R91) -/

/-- Channels that fit the buffer are written as one run of bytes. -/
theorem writeChannels_eq_writeBytes {c : Config} {k : Nat} (ds : List Byte) (ch : Nat) (m : Memory)
    (h : addr c k (ch + ds.length) 0 ≤ c.n) :
    writeChannels c k ch ds m = some (m.writeBytes (addr c k ch 0) (ds.flatMap (expand c))) := by
  induction ds generalizing ch m with
  | nil => rfl
  | cons d ds ih =>
    have hfit : addr c k ch 0 + (expand c d).length ≤ c.n := by
      simp only [addr, List.length_cons, length_expand] at h ⊢
      omega
    have hnext : addr c k ch 0 + (expand c d).length = addr c k (ch + 1) 0 := by
      simp only [addr, length_expand]
      omega
    rw [writeChannels, memWrite, if_pos hfit, List.flatMap_cons, Memory.writeBytes_append, hnext]
    exact ih (ch + 1) _ (by rwa [List.length_cons, Nat.add_comm ds.length, ← Nat.add_assoc] at h)

section
variable {c : Config} (hok : c.ok = true)
include hok

theorem length_slice (x : Colour) : (slice c x).length = c.perLed := by
  obtain ⟨hch, -, hper, -⟩ := Config.geometry_of_ok hok
  simp [slice, length_expand, length_channels x.r x.g x.b x.w hch, hper, Nat.mul_comm]

theorem length_flatMap_slice (cs : List Colour) : (cs.flatMap (slice c)).length = cs.length * c.perLed := by
  simp [length_slice hok]

/-- The slices of the first `L` colours fit the frame buffer. -/
theorem length_slices_le (cs : List Colour) : ((cs.take c.leds).flatMap (slice c)).length ≤ c.n := by
  obtain ⟨-, -, -, hn⟩ := Config.geometry_of_ok hok
  rw [length_flatMap_slice hok, hn, Nat.mul_comm]
  exact Nat.mul_le_mul_left _ (List.length_take_le _ _)

theorem addr_channels_le (r g b w : Byte) {k : Nat} (hk : k < c.leds) :
    addr c k (0 + (channels c r g b w).length) 0 ≤ c.n := by
  rw [Nat.zero_add, length_channels r g b w (Config.geometry_of_ok hok).1]
  exact addr_slot_le hok hk

theorem writeChannels_eq_writeSlice (x : Colour) {k : Nat} (hk : k < c.leds) (m : Memory) :
    writeChannels c k 0 (channels c x.r x.g x.b x.w) m = some (m.writeBytes (k * c.perLed) (slice c x)) :=
  writeChannels_eq_writeBytes _ 0 m (addr_channels_le hok x.r x.g x.b x.w hk)

theorem getElem?_channels (r g b w : Byte) {ch : Nat} (h : ch < c.ch) :
    (channels c r g b w)[ch]? = some (([r, g, b, w][ch]?).getD 0) := by
  have hlt : ch < [r, g, b, w].length := by
    obtain ⟨hch, -⟩ := Config.geometry_of_ok hok
    simp only [List.length_cons, List.length_nil]
    omega
  rw [channels, List.getElem?_take_of_lt h, List.getElem?_eq_getElem hlt, Option.getD_some]

end

/-! ### What each token does to an SPE that takes it (R77) -/

section
variable {c : Config} {p : Spe}

theorem Spe.effect_speInit (hk : p.k = 0) :
    p.effect c .speInit = some { p with fb := p.fb.writeBytes 0 (List.replicate c.n 0), init := true, k := 0 } := by
  simp [Spe.effect, hk, memWrite]

theorem Spe.effect_speColor {r g b w : Byte} {m : Memory} (hinit : p.init = true) (hk : p.k < c.leds)
    (hm : writeChannels c p.k 0 (channels c r g b w) p.fb = some m) :
    p.effect c (.speColor r g b w) = some { p with fb := m, k := p.k + 1 } := by
  simp [Spe.effect, hinit, hk, hm]

theorem Spe.effect_speColor_excess (hinit : p.init = true) (hk : c.leds ≤ p.k) (r g b w : Byte) :
    p.effect c (.speColor r g b w) = some p := by
  simp [Spe.effect, hinit, Nat.not_lt.mpr hk]

theorem Spe.effect_speEnd (hinit : p.init = true) :
    p.effect c .speEnd = some { p.start .endTok with st := .ok, code := 0 } := by
  simp [Spe.effect, hinit]

/-! ### What the SPE issues, and its answers (R85 to R90) -/

theorem Spe.element_data (hr : p.run = .endTok) (hpc : p.pc = 0) : p.element c = some (.serWrite (frame c p.fb)) := by
  simp [Spe.element, hr, hpc]

theorem Spe.element_gap (hr : p.run = .endTok) (hpc : p.pc = 1) : p.element c = some (.serWrite (zeroBuffer c)) := by
  simp [Spe.element, hr, hpc]

theorem Spe.element_flush (hr : p.run = .endTok) (hpc : p.pc = 2) : p.element c = some .serFlush := by
  simp [Spe.element, hr, hpc]

theorem Spe.element_response (hr : p.run = .endTok) (hpc : p.pc = 3) : p.element c = some (.rsp p.st p.code) := by
  simp [Spe.element, hr, hpc]

theorem Spe.element_ill (hr : p.run = .ill) : p.element c = some (.rsp .illegal 0) := by
  simp [Spe.element, hr]

/-- The SPE once it has issued an element. -/
def Spe.issued (e : SEvent) (p : Spe) : Spe := { p with trace := p.trace ++ [e], wait := true }

/-- An SPE that waits for no answer issues the element at `S_PC`. -/
theorem Spe.react_issue {e : SEvent} (hw : p.wait = false) (he : p.element c = some e) :
    p.react c .spe = some (p.issued e) := by
  have hr : p.run ≠ .idle := fun h => by simp [Spe.element, h] at he
  simp [Spe.react, Spe.move, Spe.advance, Spe.issued, hw, hr, he]

theorem Spe.onSerial_err_of_serWrite {bs : List Byte} (hw : p.wait = true) (he : p.element c = some (.serWrite bs))
    (code : Nat) : p.onSerial c (.err code) = p.raiseSerial c .writeErr code := by
  simp [Spe.onSerial, hw, he]

theorem Spe.onSerial_err_of_serFlush (hw : p.wait = true) (he : p.element c = some .serFlush) (code : Nat) :
    p.onSerial c (.err code) = p.raiseSerial c .flushErr code := by
  simp [Spe.onSerial, hw, he]

theorem Spe.onTaken_of_element {st : Status} {code : Nat} (hw : p.wait = true)
    (he : p.element c = some (.rsp st code)) :
    p.onTaken c = { p.finish with rsp := p.rsp ++ [responseWord c st code] } := by
  simp [Spe.onTaken, hw, he]

theorem Spe.finish_of_endTok (hr : p.run = .endTok) : p.finish = { p.retire with k := 0, wait := false } := by
  simp [Spe.finish, hr]

theorem Spe.finish_of_ill (hr : p.run = .ill) : p.finish = { p.retire with wait := false } := by
  simp [Spe.finish, hr]

/-- A code of `EW` bits passes the port unchanged (R59). -/
theorem Spe.raiseSerial_of_lt {code : Nat} (h : code < 2 ^ c.ew) (st : Status) :
    p.raiseSerial c st code = { p with st := st, code := code, pc := 3, wait := false } := by
  rw [Spe.raiseSerial, Nat.mod_eq_of_lt h]

end

/-! ### Single steps of the SPE -/

/-- Settles O28: the effect is one write of `N` zero bytes from address 0. -/
theorem speInitZeroesTheBuffer : Obligations.SpeInitZeroesTheBuffer := by
  intro s hwf hr hf hk
  refine ⟨s.spe.fb.writeBytes 0 (List.replicate s.cfg.n 0), ?_, Memory.wf_writeBytes _ _ hwf, fun a ha => ?_,
    fun a ha => Memory.read_writeBytes_outside _ _ _ hwf (.inr (by simpa using ha))⟩
  · rw [exec_of_spe_ready rfl hr hf, Spe.effect_speInit (p := s.spe.taken) hk]
    rfl
  · have hread := Memory.read_writeBytes_inside 0 (List.replicate s.cfg.n 0) a hwf (by simpa using ha)
    simpa using hread

/-- Settles O29: the channels fit the slot, so `writeChannels_spec` says what is written and what is kept. -/
theorem speColorWritesItsSlot : Obligations.SpeColorWritesItsSlot := by
  intro r g b w s hok hwf hr hf hinit hk
  have hfit := addr_channels_le hok r g b w hk
  obtain ⟨m, hm, hmwf, hout, hin⟩ := writeChannels_spec s.cfg s.spe.k (channels s.cfg r g b w) 0 s.spe.fb hwf hfit
  refine ⟨m, ?_, hmwf, fun ch p hch hp => ?_, fun a ha => hout a ?_⟩
  · rw [exec_of_spe_ready rfl hr hf, Spe.effect_speColor (p := s.spe.taken) hinit hk hm]
    rfl
  · rw [← hin ch _ p (getElem?_channels hok r g b w hch) hp, Nat.zero_add]
  · rwa [Nat.zero_add, length_channels r g b w (Config.geometry_of_ok hok).1, ← addr_next_slot hok]

/-- Settles O30: beyond the last slot the effect is none. -/
theorem excessColourIsDropped : Obligations.ExcessColourIsDropped := by
  intro r g b w s hr hf hinit hk
  rw [exec_of_spe_ready rfl hr hf, Spe.effect_speColor_excess (p := s.spe.taken) hinit hk]
  rfl

/-- Settles O31, by `Spe.effect_speEnd`. -/
theorem speEndTaken : Obligations.SpeEndTaken := by
  intro s hr hf hinit
  rw [exec_of_spe_ready rfl hr hf, Spe.effect_speEnd (p := s.spe.taken) hinit]
  rfl

/-- The step of an SPE that issues an element. -/
theorem step_of_spe_issue {s : State} {ms : List Move} {e : SEvent} (hok : s.cfg.ok = true) (ha : s.agenda = .spe :: ms)
    (hw : s.spe.wait = false) (he : s.spe.element s.cfg = some e) :
    step s = .next ((s.withAgenda ms).withSpe { s.spe with trace := s.spe.trace ++ [e], wait := true }) := by
  rw [step_eq_react hok ha, Spe.react_issue hw he]
  rfl

/-- Settles O38: at each point the SPE issues the element that stands there. -/
theorem speIssuesInOrder : Obligations.SpeIssuesInOrder := by
  refine fun s ms hok ha hw => ⟨fun hr hpc => ?_, fun hr hpc => ?_, fun hr hpc => ?_, fun hr hpc => ?_, fun hr => ?_⟩
  · rw [← frame_eq_map_read]
    exact step_of_spe_issue hok ha hw (Spe.element_data hr hpc)
  · exact step_of_spe_issue hok ha hw (Spe.element_gap hr hpc)
  · exact step_of_spe_issue hok ha hw (Spe.element_flush hr hpc)
  · exact step_of_spe_issue hok ha hw (Spe.element_response hr hpc)
  · exact step_of_spe_issue hok ha hw (Spe.element_ill hr)

/-- Settles O40: which failure is raised depends on the element that is outstanding, and the code passes unchanged. -/
theorem serialFailureAborts : Obligations.SerialFailureAborts := by
  intro s ms code hok ha hw hr hcode
  have hwrite {bs : List Byte} (he : s.spe.element s.cfg = some (.serWrite bs)) :
      step s = .next ((s.withAgenda ms).withSpe { s.spe with st := .writeErr, code := code, pc := 3, wait := false }) := by
    rw [step_eq_react hok ha, Spe.react, Spe.onSerial_err_of_serWrite hw he, Spe.raiseSerial_of_lt hcode]
    rfl
  refine ⟨fun hpc => ?_, fun hpc => ?_⟩
  · rcases hpc with hpc | hpc
    · exact hwrite (Spe.element_data hr hpc)
    · exact hwrite (Spe.element_gap hr hpc)
  · rw [step_eq_react hok ha, Spe.react, Spe.onSerial_err_of_serFlush hw (Spe.element_flush hr hpc),
      Spe.raiseSerial_of_lt hcode]
    rfl

/-- Settles O41: the response taken is the element outstanding, and the token finishes. -/
theorem speResponseEndsTheToken : Obligations.SpeResponseEndsTheToken := by
  refine fun s ms hok ha hw => ⟨fun hr hpc => ?_, fun hr => ?_⟩
  · rw [step_eq_react hok ha, Spe.react, Spe.onTaken_of_element hw (Spe.element_response hr hpc),
      Spe.finish_of_endTok hr]
    rfl
  · rw [step_eq_react hok ha, Spe.react, Spe.onTaken_of_element hw (Spe.element_ill hr), Spe.finish_of_ill hr]
    rfl

/-! ### A whole write of the SPE, every transaction answered `ok` (R91) -/

/-- A ready SPE takes the oldest word with the effect of the instruction it encodes. -/
theorem Spe.react_of_ready {c : Config} {p : Spe} {i : Instr} {ts : List Token} (hi : engineOf i = .spe)
    (hr : p.run = .idle) (hf : p.fault = false) (hw : p.wait = false) (ht : p.tok = encode i :: ts) :
    p.react c .spe = p.taken.effect c i := by
  have hdec : decode .spe (encode i) = i := hi ▸ decode_encode i
  have hoffer : p.offer c i = p.taken.effect c i := if_pos (p.ready_iff.mpr ⟨hr, hf⟩)
  simp [Spe.react, Spe.move, hw, hr, ht, hdec, hoffer]

theorem Spe.reacts_cons {c : Config} {m : Move} {p q : Spe} (ms : List Move) (h : p.react c m = some q) :
    p.reacts c (m :: ms) = q.reacts c ms := by
  rw [Spe.reacts, List.foldlM_cons, h]
  rfl

/-- The SPE once colours have been encoded: their slices stand from slot `S_K` on, as far as there are slots, and `S_K` has
moved past them (R82, R83). -/
def Spe.coloured (c : Config) (cs : List Colour) (ts : List Token) (p : Spe) : Spe :=
  { p with
    fb := p.fb.writeBytes (p.k * c.perLed) ((cs.take (c.leds - p.k)).flatMap (slice c))
    k := min (p.k + cs.length) c.leds
    tok := ts }

/-- A ready SPE takes a colour: slot `S_K` gets its slice, or there is no slot left (R82, R83). -/
theorem Spe.react_speColor {c : Config} {p : Spe} {x : Colour} {ts : List Token} (hok : c.ok = true) (hr : p.run = .idle)
    (hf : p.fault = false) (hw : p.wait = false) (hinit : p.init = true) (hk : p.k ≤ c.leds)
    (ht : p.tok = encode (.speColor x.r x.g x.b x.w) :: ts) :
    p.react c .spe = some (p.coloured c [x] ts) := by
  rw [Spe.react_of_ready rfl hr hf hw ht]
  rcases Nat.lt_or_eq_of_le hk with hlt | heq
  · have htake : [x].take (c.leds - p.k) = [x] := List.take_of_length_le (Nat.le_sub_of_add_le' hlt)
    rw [Spe.effect_speColor (p := p.taken) hinit hlt (writeChannels_eq_writeSlice hok x hlt p.fb)]
    simp [Spe.coloured, Spe.taken, ht, htake, Nat.min_eq_left (Nat.succ_le_of_lt hlt)]
  · rw [Spe.effect_speColor_excess (p := p.taken) hinit heq.ge]
    simp [Spe.coloured, Spe.taken, ht, heq, Memory.writeBytes]

/-- Encoding a colour and then others is encoding them all: each slot begins where the one before it ends. -/
theorem Spe.coloured_cons {c : Config} {p : Spe} (hok : c.ok = true) (hk : p.k ≤ c.leds) (x : Colour)
    (cs : List Colour) (us ts : List Token) :
    (p.coloured c [x] us).coloured c cs ts = p.coloured c (x :: cs) ts := by
  rcases Nat.lt_or_eq_of_le hk with hlt | heq
  · obtain ⟨j, hj⟩ : ∃ j, c.leds - p.k = j + 1 := ⟨c.leds - p.k - 1, by omega⟩
    have hmin : min (p.k + 1) c.leds = p.k + 1 := Nat.min_eq_left hlt
    have hj' : c.leds - (p.k + 1) = j := by omega
    have hlen : p.k * c.perLed + (slice c x).length = (p.k + 1) * c.perLed := by
      rw [length_slice hok, Nat.add_mul, Nat.one_mul]
    simp [Spe.coloured, hj, hmin, hj', Memory.writeBytes_append, hlen, Nat.add_assoc, Nat.add_comm 1]
  · simp [Spe.coloured, heq, Memory.writeBytes]

/-- The moves that offer colours to a ready SPE encode them all. -/
theorem Spe.reacts_colours {c : Config} {cs : List Colour} {ts : List Token} {p : Spe} (hok : c.ok = true)
    (hr : p.run = .idle) (hf : p.fault = false) (hw : p.wait = false) (hinit : p.init = true) (hk : p.k ≤ c.leds)
    (ht : p.tok = cs.map (fun x => encode (.speColor x.r x.g x.b x.w)) ++ ts) :
    p.reacts c (List.replicate cs.length .spe) = some (p.coloured c cs ts) := by
  induction cs generalizing p with
  | nil =>
    change some p = _
    simp [Spe.coloured, Memory.writeBytes, Nat.min_eq_left hk, ← show p.tok = ts from ht]
  | cons x cs ih =>
    rw [List.length_cons, List.replicate_succ, Spe.reacts_cons _ (Spe.react_speColor hok hr hf hw hinit hk ht)]
    exact (ih (p := p.coloured c [x] _) hr hf hw hinit (Nat.min_le_right _ _) rfl).trans
      (congrArg some (Spe.coloured_cons hok hk x cs _ ts))

/-- The SPE once a transaction has been issued and answered `ok`. -/
def Spe.sent (e : SEvent) (p : Spe) : Spe := { p with trace := p.trace ++ [e], pc := p.pc + 1 }

/-- A transfer or the flush is issued and answered `ok` (R86, R87, R88). -/
theorem Spe.reacts_issue_ok {c : Config} {p : Spe} {e : SEvent} (hw : p.wait = false) (hr : p.run = .endTok)
    (hpc : p.pc ≠ 3) (he : p.element c = some e) (ms : List Move) :
    p.reacts c (.spe :: .serAnswer .ok :: ms) = (p.sent e).reacts c ms := by
  have hanswer : (p.issued e).onSerial c .ok = p.sent e := by
    rw [Spe.onSerial_ok (p := p.issued e) rfl hr hpc, Spe.answered, Spe.issued, Spe.sent, hw]
  rw [Spe.reacts_cons _ (Spe.react_issue hw he)]
  exact Spe.reacts_cons ms (congrArg some hanswer)

/-- The response is issued and taken by the host (R90). -/
theorem Spe.reacts_issue_response {c : Config} {p : Spe} (hw : p.wait = false) (hr : p.run = .endTok)
    (hpc : p.pc = 3) :
    p.reacts c [.spe, .speRspTaken] = some { p with
      trace := p.trace ++ [.rsp p.st p.code], rsp := p.rsp ++ [responseWord c p.st p.code],
      run := .idle, pc := 0, k := 0 } := by
  have he : p.element c = some (.rsp p.st p.code) := Spe.element_response hr hpc
  rw [Spe.reacts_cons _ (Spe.react_issue hw he)]
  change some ((p.issued (.rsp p.st p.code)).onTaken c) = _
  rw [Spe.onTaken_of_element (p := p.issued (.rsp p.st p.code)) rfl he,
    Spe.finish_of_endTok (p := p.issued (.rsp p.st p.code)) hr]
  simp [Spe.issued, Spe.retire, Spe.start, hw]

/-- The events of an `END`'s script when every transaction is answered `ok`. -/
def speEndMoves : List Move :=
  [.spe, .serAnswer .ok, .spe, .serAnswer .ok, .spe, .serAnswer .ok, .spe, .speRspTaken]

/-- An `END` from its start: the frame, the gap, the flush and the response (R85). -/
theorem Spe.reacts_end {c : Config} {p : Spe} (hw : p.wait = false) (hr : p.run = .endTok) (hpc : p.pc = 0) :
    p.reacts c speEndMoves = some { p with
      trace := p.trace ++ [.serWrite (frame c p.fb), .serWrite (zeroBuffer c), .serFlush, .rsp p.st p.code]
      rsp := p.rsp ++ [responseWord c p.st p.code]
      run := .idle, pc := 0, k := 0 } := by
  rw [speEndMoves]
  let p₁ := p.sent (.serWrite (frame c p.fb))
  let p₂ := p₁.sent (.serWrite (zeroBuffer c))
  let p₃ := p₂.sent .serFlush
  have hpc₁ : p₁.pc = 1 := by simp [p₁, Spe.sent, hpc]
  have hpc₂ : p₂.pc = 2 := by simp [p₂, Spe.sent, hpc₁]
  have hpc₃ : p₃.pc = 3 := by simp [p₃, Spe.sent, hpc₂]
  rw [Spe.reacts_issue_ok hw hr (by simp [hpc]) (Spe.element_data hr hpc),
    Spe.reacts_issue_ok (p := p₁) hw hr (by simp [hpc₁]) (Spe.element_gap hr hpc₁),
    Spe.reacts_issue_ok (p := p₂) hw hr (by simp [hpc₂]) (Spe.element_flush hr hpc₂),
    Spe.reacts_issue_response (p := p₃) hw hr hpc₃]
  simp [p₁, p₂, p₃, Spe.sent]

/-- A whole `END`: the word is taken by a ready SPE and its script carried out. -/
theorem Spe.reacts_speEnd {c : Config} {p : Spe} {ts : List Token} (hr : p.run = .idle) (hf : p.fault = false)
    (hw : p.wait = false) (hinit : p.init = true) (ht : p.tok = encode .speEnd :: ts) :
    p.reacts c (.spe :: speEndMoves) = some { p with
      tok := ts, st := .ok, code := 0, pc := 0, k := 0
      trace := p.trace ++ [.serWrite (frame c p.fb), .serWrite (zeroBuffer c), .serFlush, .rsp .ok 0]
      rsp := p.rsp ++ [responseWord c .ok 0] } := by
  have htake := (Spe.react_of_ready (c := c) rfl hr hf hw ht).trans (Spe.effect_speEnd (p := p.taken) hinit)
  rw [Spe.reacts_cons _ htake]
  refine (Spe.reacts_end (p := { p.taken.start .endTok with st := .ok, code := 0 }) hw rfl rfl).trans ?_
  simp [ht, hr]

/-- The events of an SPE write: one move per colour, one that takes the `END`, and those of its script. -/
theorem speWriteMoves_eq (k : Nat) : speWriteMoves k = List.replicate k .spe ++ .spe :: speEndMoves := by
  rw [speWriteMoves, List.replicate_succ', List.append_assoc]
  rfl

/-- The SPE after a whole write from slot 0: the colours' slices are in the buffer, and the `END` has been carried out. -/
theorem Spe.reacts_speWrite {c : Config} {cs : List Colour} {ts : List Token} {p : Spe} (hok : c.ok = true)
    (hr : p.run = .idle) (hf : p.fault = false) (hw : p.wait = false) (hinit : p.init = true) (hk : p.k = 0)
    (ht : p.tok = (speWrite cs).map encode ++ ts) {m : Memory}
    (hm : m = p.fb.writeBytes 0 ((cs.take c.leds).flatMap (slice c))) :
    p.reacts c (speWriteMoves cs.length) = some { p with
      fb := m, st := .ok, code := 0, pc := 0, tok := ts
      trace := p.trace ++ [.serWrite (frame c m), .serWrite (zeroBuffer c), .serFlush, .rsp .ok 0]
      rsp := p.rsp ++ [responseWord c .ok 0] } := by
  have htok : p.tok = cs.map (fun x => encode (.speColor x.r x.g x.b x.w)) ++ (encode .speEnd :: ts) := by
    simp [ht, speWrite, Function.comp_def]
  rw [speWriteMoves_eq, Spe.reacts_append, Spe.reacts_colours hok hr hf hw hinit (by omega) htok, Option.bind_some,
    Spe.reacts_speEnd (p := p.coloured c cs _) hr hf hw hinit rfl]
  simp [Spe.coloured, hk, hm]

/-- The GPE does not react to the events of an SPE write (R3). -/
theorem Gpe.reacts_speWriteMoves (c : Config) (k : Nat) (g : Gpe) : g.reacts c (speWriteMoves k) = g := by
  have hcolours : g.reacts c (List.replicate k .spe) = g := by
    induction k with
    | zero => rfl
    | succ k ih => exact ih
  rw [speWriteMoves_eq, Gpe.reacts_append, hcolours]
  rfl

theorem length_speWriteMoves (k : Nat) : (speWriteMoves k).length = k + 9 := by
  simp [speWriteMoves]

/-- Settles O42: the run is the SPE's reactions alone, and the frame begins with the slices written. -/
theorem speWriteSendsTheFrame : Obligations.SpeWriteSendsTheFrame := by
  intro s cs ts rest hok hwf hr hf hw hinit hk ht ha
  refine ⟨s.spe.fb.writeBytes 0 ((cs.take s.cfg.leds).flatMap (slice s.cfg)), Memory.wf_writeBytes _ _ hwf, ?_, ?_⟩
  · rw [frame_writeBytes hwf (length_slices_le hok cs), length_flatMap_slice hok, List.length_take, Nat.min_comm]
  · rw [← length_speWriteMoves, runSteps_eq_reacts hok ha, Spe.reacts_speWrite hok hr hf hw hinit hk ht rfl,
      Gpe.reacts_speWriteMoves]
    rfl

/-- Settles O43: the `INIT` zeroes the buffer (`speInitZeroesTheBuffer`), and the write that follows sends the slices and the
rest of a zero frame (`speWriteSendsTheFrame`). -/
theorem freshWriteIsIdempotent : Obligations.FreshWriteIsIdempotent := by
  intro s cs ts rest hok hwf hr hf hw hk ht ha
  obtain ⟨z, hexec, hzwf, hzero, -⟩ :=
    speInitZeroesTheBuffer (s.withAgenda (speWriteMoves cs.length ++ rest)) hwf hr hf hk
  have hstep := ((stepRunsTheDecodedToken s _ _ _ hok).2 ha hw hr ht).trans hexec
  obtain ⟨m, -, hframe, hrun⟩ :=
    speWriteSendsTheFrame ((s.withAgenda (speWriteMoves cs.length ++ rest)).withSpe
        { s.spe with tok := s.spe.tok.tail, fb := z, init := true, k := 0 })
      cs ts rest hok hzwf hr hf hw rfl rfl (congrArg List.tail ht) rfl
  refine ⟨_, (runSteps_succ _ hstep).trans hrun, ?_⟩
  have hpayload : frame s.cfg m = (cs.take s.cfg.leds).flatMap (slice s.cfg) ++
      List.replicate (s.cfg.n - min cs.length s.cfg.leds * s.cfg.perLed) 0 := by
    have hz : frame s.cfg z = List.replicate s.cfg.n 0 := frame_of_zero hzero
    rw [← List.drop_replicate, ← hz]
    exact hframe
  rw [← hpayload]
  rfl

end Sys2Proof.Machine

namespace Sys2Proof.Machine

/-! ### The fault bits (R20, R27, R102)

Every operation of an engine but the take of a token leaves its fault bit as it is, and a faulted engine takes no token; so
only hardware reset clears the bit. -/

@[simp] theorem Gpe.advance_fault (c : Config) (g : Gpe) : (g.advance c).fault = g.fault := by
  rcases g.advance_cases c with ⟨e, -, h⟩ | ⟨-, h⟩ | ⟨-, h⟩ <;> exact (congrArg Gpe.fault h).trans rfl

@[simp] theorem Gpe.onPin_fault (c : Config) (err : Bool) (g : Gpe) : (g.onPin c err).fault = g.fault := by
  rcases g.onPin_cases c err with ⟨v, -, -, h⟩ | h <;> exact (congrArg Gpe.fault h).trans rfl

@[simp] theorem Gpe.onDelay_fault (c : Config) (g : Gpe) : (g.onDelay c).fault = g.fault := by
  rcases g.onDelay_cases c with ⟨n, -, -, h⟩ | h <;> exact (congrArg Gpe.fault h).trans rfl

@[simp] theorem Gpe.onTaken_fault (c : Config) (g : Gpe) : (g.onTaken c).fault = g.fault := by
  rcases g.onTaken_cases c with ⟨st, code, -, -, h⟩ | h <;> exact (congrArg Gpe.fault h).trans rfl

@[simp] theorem Spe.advance_fault (c : Config) (p : Spe) : (p.advance c).fault = p.fault := by
  rcases p.advance_cases c with ⟨e, -, h⟩ | ⟨-, h⟩ <;> exact (congrArg Spe.fault h).trans rfl

@[simp] theorem Spe.onSerial_fault (c : Config) (a : SerAnswer) (p : Spe) : (p.onSerial c a).fault = p.fault := by
  rcases p.onSerial_cases c a with ⟨-, -, -, -, h⟩ | ⟨_, -, -, -, -, h⟩ | ⟨_, -, -, -, -, h⟩ | h <;>
    exact (congrArg Spe.fault h).trans rfl

@[simp] theorem Spe.onTaken_fault (c : Config) (p : Spe) : (p.onTaken c).fault = p.fault := by
  rcases p.onTaken_cases c with ⟨-, -, -, h⟩ | ⟨-, -, h⟩ | h <;> exact (congrArg Spe.fault h).trans rfl

/-- A faulted GPE stays faulted in its own move. -/
theorem Gpe.move_keeps_fault {g : Gpe} (hf : g.fault = true) (c : Config) : (g.move c).fault = true := by
  unfold Gpe.move
  split
  · exact hf
  · split
    · split
      · exact hf
      · rwa [Gpe.offer_of_busy_or_faulted (.inr hf)]
    · rwa [Gpe.advance_fault]

/-- A faulted SPE stays faulted in its own move. -/
theorem Spe.move_keeps_fault {c : Config} {p q : Spe} (hf : p.fault = true) (hq : p.move c = some q) :
    q.fault = true := by
  unfold Spe.move at hq
  split at hq
  · cases hq; exact hf
  · split at hq
    · split at hq
      · cases hq; exact hf
      · rw [Spe.offer_of_busy_or_faulted (.inr hf)] at hq
        cases hq; exact hf
    · cases hq; rwa [Spe.advance_fault]

/-- No event but hardware reset clears the fault bit of the GPE. -/
theorem Gpe.react_keeps_fault {g : Gpe} {m : Move} (hf : g.fault = true) (hrst : ∀ col fill, m ≠ .rst col fill)
    (c : Config) : (g.react c m).fault = true := by
  cases m with
  | gpe => exact Gpe.move_keeps_fault hf c
  | pinAnswer err => exact (g.onPin_fault c err).trans hf
  | delayDone => exact (g.onDelay_fault c).trans hf
  | gpeRspTaken => exact (g.onTaken_fault c).trans hf
  | rst col fill => exact absurd rfl (hrst col fill)
  | gpeToken | spe | serAnswer | speRspTaken | speToken | lateAnswer => exact hf

/-- No event but hardware reset clears the fault bit of the SPE. -/
theorem Spe.react_keeps_fault {c : Config} {m : Move} {p q : Spe} (hf : p.fault = true)
    (hrst : ∀ col fill, m ≠ .rst col fill) (hq : p.react c m = some q) : q.fault = true := by
  cases m with
  | spe => exact Spe.move_keeps_fault hf hq
  | serAnswer a => cases hq; exact (p.onSerial_fault c a).trans hf
  | speRspTaken => cases hq; exact (p.onTaken_fault c).trans hf
  | rst col fill => exact absurd rfl (hrst col fill)
  | speToken | gpe | pinAnswer | delayDone | gpeRspTaken | gpeToken | lateAnswer => cases hq; exact hf

/-- A step without hardware reset keeps each fault bit that is set. -/
theorem step_keeps_faults {s t : State} (h : step s = .next t) (hrst : ∀ col fill ms, s.agenda ≠ .rst col fill :: ms) :
    (s.gpe.fault = true → t.gpe.fault = true) ∧ (s.spe.fault = true → t.spe.fault = true) := by
  cases ha : s.agenda with
  | nil =>
    obtain rfl := step_next_of_no_event ha h
    exact ⟨id, id⟩
  | cons m ms =>
    obtain ⟨hg, hp⟩ := step_next ha h
    have hm : ∀ col fill, m ≠ .rst col fill := fun col fill hm => hrst col fill ms (hm ▸ ha)
    exact ⟨fun hf => hg ▸ Gpe.react_keeps_fault hf hm s.cfg, fun hf => Spe.react_keeps_fault hf hm hp⟩

theorem State.final_of_gpe_fault {s : State} (hf : s.gpe.fault = true) : s.final = false := by
  simp [State.final, State.faulted, hf]

theorem State.final_of_spe_fault {s : State} (hf : s.spe.fault = true) : s.final = false := by
  simp [State.final, State.faulted, hf]

/-- Settles O49: the step keeps the fault bit (`step_keeps_faults`) and the words on the channel
(`busyOrFaultedEngineTakesNothing`), and the state it reaches is faulted, hence not final. -/
theorem faultIsStickyUntilReset : Obligations.FaultIsStickyUntilReset := by
  intro s t h hrst
  obtain ⟨hgfault, hpfault⟩ := step_keeps_faults h hrst
  obtain ⟨hgtok, hptok⟩ := busyOrFaultedEngineTakesNothing.2 s t h hrst
  exact ⟨fun hf => ⟨hgfault hf, hgtok (.inr hf), State.final_of_gpe_fault (hgfault hf)⟩,
    fun hf => ⟨hpfault hf, (hptok (.inr hf)).1, State.final_of_spe_fault (hpfault hf)⟩⟩

end Sys2Proof.Machine

namespace Sys2Proof.Machine

/-! ### The requested time of a script (R129) -/

theorem requestedTime_append (es fs : List GEvent) :
    requestedTime (es ++ fs) = requestedTime es + requestedTime fs := by
  induction es with
  | nil => simp [requestedTime]
  | cons e es ih => cases e <;> simp [requestedTime, ih, Nat.add_assoc]

/-- A 1 bit without `T_LOW1` requests no low time, as if `T_LOW1` were 0 (R67, R68). -/
theorem requestedTime_bitScript (c : Config) (b : Bool) :
    requestedTime (bitScript c b) = c.tSettle + if b then c.tLong + c.tLow1.getD 0 else c.tShort + c.tLow := by
  cases b with
  | false => rfl
  | true => cases h : c.tLow1 <;> simp [bitScript, h, requestedTime]

/-- Each bit requests the settle time, and its own times by its value. -/
theorem requestedTime_flatMap_bitScript (c : Config) (bs : List Bool) :
    requestedTime (bs.flatMap (bitScript c)) =
      bs.length * c.tSettle + bs.count false * (c.tShort + c.tLow) + bs.count true * (c.tLong + c.tLow1.getD 0) := by
  induction bs with
  | nil => simp [requestedTime]
  | cons b bs ih =>
    rw [List.flatMap_cons, requestedTime_append, requestedTime_bitScript, ih, List.length_cons]
    cases b with
    | false =>
      rw [List.count_cons_self, List.count_cons_of_ne (by decide), if_neg (by decide)]
      ring
    | true =>
      rw [List.count_cons_self, List.count_cons_of_ne (by decide), if_pos rfl]
      ring

theorem count_true_bitsMsbFirst {n : Nat} (v : BitVec n) : (bitsMsbFirst v).count true = n - zeroBits n v := by
  have hsum := List.count_true_add_count_false (bitsMsbFirst v)
  rw [length_bitsMsbFirst, count_false_bitsMsbFirst] at hsum
  omega

/-- Settles O21: a colour's script is its bits' waveforms, whose times `requestedTime_flatMap_bitScript` adds up. -/
theorem requestedTimeOfAColour : Obligations.RequestedTimeOfAColour := by
  refine fun c col => ⟨?_, rfl⟩
  rw [colorScript_eq_flatMap, requestedTime_flatMap_bitScript, length_bitsMsbFirst, count_false_bitsMsbFirst,
    count_true_bitsMsbFirst]

end Sys2Proof.Machine

namespace Sys2Proof.Machine

/-! ### The word the host places (log entries 5 and 9) -/

theorem State.withFetchWord_of_engine (s : State) {nbits w : Nat} {e : Engine} (he : tableEngine nbits w = some e) :
    s.withFetchWord nbits w = placeToken s e (tableToken nbits w) := by
  simp [State.withFetchWord, he]

/-- The engine of a placed token is the next to move and able to take it, as `stepRunsTheDecodedToken` asks. -/
theorem step_placeToken {s : State} (hok : s.cfg.ok = true) (e : Engine) (t : Token) :
    step (placeToken s e t) = exec (decode e t) ((placeToken s e t).withAgenda s.agenda) := by
  cases e with
  | gpe => exact (stepRunsTheDecodedToken (placeToken s .gpe t) t s.gpe.tok s.agenda hok).1 rfl rfl rfl rfl
  | spe => exact (stepRunsTheDecodedToken (placeToken s .spe t) t s.spe.tok s.agenda hok).2 rfl rfl rfl rfl

/-- Settles O10: a word that decodes names an engine, and the step from its placed token is `step_placeToken`. -/
theorem placedWordRunsNext : Obligations.PlacedWordRunsNext := by
  intro s nbits w i hok hdecode
  obtain ⟨e, he, rfl⟩ := Option.map_eq_some_iff.mp hdecode
  rw [s.withFetchWord_of_engine he]
  exact step_placeToken hok e (tableToken nbits w)

end Sys2Proof.Machine
